-- ==== Sys2Proof/Word.lean ====
section
/-! DEFINITION. The word types of the NZR encoder: command word, colour byte, packed colour.
A buffer word, a timing register and the compare register have `WORD_W` bits, a parameter of the
build (00_scope.md R8): their values are natural numbers, and `State.WF` (Safety.lean) says that they
are below `2 ^ WORD_W`; no rule shifts, masks or wraps one (40_init_timing.md R120). Log entry 2. -/

namespace Sys2Proof

/-- One colour channel: 8 bits, stored raw (30_encoding.md R80). -/
abbrev Byte := BitVec 8

/-- A packed colour: 24 bits (30_encoding.md R81). -/
abbrev Colour := BitVec 24

/-- A command word on the `CMD` port: `CW_W = 64` bits (00_scope.md R12, 30_encoding.md R90). -/
abbrev CmdWord := BitVec 64

/-- The `NOTIFY` port is one line (30_encoding.md R94). -/
abbrev Line := BitVec 1

end Sys2Proof
end

