-- ==== Sys2Proof/Config.lean ====
section
/-! DEFINITION. The parameters of a build, the configuration record, and the free values: what the
spec leaves to the implementation, to the host or to nobody. -/

namespace Sys2Proof

/-- A pixel: an ordered triple of 8-bit channels (30_encoding.md R80). -/
structure Pixel where
  r : Byte
  g : Byte
  b : Byte
  deriving DecidableEq, Repr, Inhabited

/-- The in-flight burst of the external DMA engine (10_state.md R32 (b)). -/
inductive Xfer where
  /-- No burst. -/
  | none
  /-- A burst of `len` words of which `pos` have been moved. -/
  | active (len pos : Nat)
  /-- A burst whose start failed: it never moves a word and never completes (60_exceptions.md R228). -/
  | dead
  deriving DecidableEq, Repr, Inhabited

/-- The build parameters the spec leaves OPEN (00_scope.md R7 to R10). -/
structure Params where
  /-- `MAX_CH`, the number of pixel registers (R7). -/
  maxCh : Nat
  /-- `WORD_W`, the width of a buffer word in bits (R8). -/
  wordW : Nat
  /-- `GUARD`: true is the spec's 1, false its 0 (R9). -/
  guard : Bool
  /-- `IDLE_ON_DONE` (R10). -/
  idleOnDone : Bool
  deriving DecidableEq, Repr

/-- A peripheral, channel or pin of the platform: an opaque identifier that no rule computes with
(30_encoding.md R92). -/
abbrev OpaqueId := Nat

/-- Output polarity: the spec's bit 0 is active high, bit 1 active low (30_encoding.md R92). -/
inductive Polarity where
  | activeHigh
  | activeLow
  deriving DecidableEq, Repr, Inhabited

/-- The two forms of the timing part of the configuration record (30_encoding.md R92). -/
inductive TimingForm where
  /-- Form A: `f_sym_hz`, and the two high-time fractions `z_num / z_den`, `o_num / o_den`. -/
  | fractions (fSymHz zNum zDen oNum oDen : Nat)
  /-- Form B: `t_sym_ns`, `t0h_ns`, `t1h_ns`. -/
  | durations (tSymNs t0hNs t1hNs : Nat)
  deriving DecidableEq, Repr, Inhabited

/-- The configuration record of the `CFG` port (30_encoding.md R92). -/
structure CfgRecord where
  periph   : OpaqueId
  channel  : OpaqueId
  pin      : OpaqueId
  polarity : Polarity
  /-- `req_count`, 16 bits (00_scope.md R12). -/
  reqCount : BitVec 16
  fClkHz   : Nat
  prescDiv : Nat
  timing   : TimingForm
  deriving DecidableEq, Repr, Inhabited

/-- The parameters `State.reset` carries: those of the spec's programs P1, P4 and P5. DESIGN CHOICE,
log entry 1: the spec leaves all four OPEN, and every statement of this model is about every value. -/
def Config.params : Params :=
  { maxCh := 64, wordW := 32, guard := true, idleOnDone := false }

/-- Free value: the `draw WORD_W` of `INIT` when the timing arithmetic has no result
(40_init_timing.md R118), for the record that was sampled and the `k`-th draw. Log entry 6. -/
opaque Config.freeWord (w : Nat) (c : CfgRecord) (k : Nat) : BitVec w

/-- Free value: what pixel register `i` holds until it is first written (10_state.md R37, R38).
Log entry 7. -/
opaque Config.powerOnPixel (i : Nat) : Pixel

/-- Free value: what the external compare register holds until it is first written
(10_state.md R37, 40_init_timing.md R129). Log entry 8. -/
opaque Config.powerOnCcr (w : Nat) : BitVec w

/-- Free value: whether the `k`-th burst start succeeds, where no input has said so
(60_exceptions.md R228). Log entry 5. -/
opaque Config.freeStart (k : Nat) : Bool

/-- Free value: the DMA engine's burst after a `TC.StartDma` that arrives while one is in flight,
which its contract does not cover (60_exceptions.md R227). Log entry 10. -/
opaque Config.freeXfer (k : Nat) : Xfer

end Sys2Proof
end

