-- ==== Sys2Proof/Syntax.lean ====
section
/-! DEFINITION. The operations of the NZR encoder, one constructor per row of the opcode table. -/

namespace Sys2Proof

/-- The eight host operations (30_encoding.md R90) and the event `TC_DONE` (R94). An index is a
natural number `0 .. 65535` (R91); `Instr.wf` checks the bound. -/
inductive Instr where
  /-- `INIT`: its operands are the configuration record on the `CFG` port. -/
  | init
  /-- `SET_RGB idx, r, g, b`. -/
  | setRgb (idx : Nat) (r g b : Byte)
  /-- `SET_PACKED idx, c`. -/
  | setPacked (idx : Nat) (c : Colour)
  /-- `FILL c`. -/
  | fill (c : Colour)
  /-- `CLEAR`. -/
  | clear
  /-- `SHOW`. -/
  | showFrame
  /-- `GET idx`. -/
  | get (idx : Nat)
  /-- `STATUS`. -/
  | status
  /-- `TC_DONE`: the completion notification, an event on the `NOTIFY` line. -/
  | tcDone
  deriving DecidableEq, Repr

end Sys2Proof
end

