-- ==== Sys2Proof/WellFormed.lean ====
section
/-! DEFINITION. Which instructions an encoding can carry, and which parameters a build may have. -/

namespace Sys2Proof

/-- An index operand fits `IDX_W = 16` bits (00_scope.md R12, 30_encoding.md R91). -/
def indexFits (idx : Nat) : Bool := decide (idx < 65536)

/-- An instruction is well formed when its index, if it has one, fits the command word's field. The
other operands have their field's width by type. -/
def Instr.wf : Instr → Bool
  | .init => true
  | .setRgb idx _ _ _ => indexFits idx
  | .setPacked idx _ => indexFits idx
  | .fill _ => true
  | .clear => true
  | .showFrame => true
  | .get idx => indexFits idx
  | .status => true
  | .tcDone => true

/-- The ranges the spec gives the parameters: `MAX_CH >= 1` (00_scope.md R7) and below `2^16`
(92_eei_decisions.md D2), `WORD_W >= 1` (R8); `GUARD` is 0 or 1 by type (R9). -/
def Params.wf (p : Params) : Bool :=
  decide (1 ≤ p.maxCh) && decide (p.maxCh < 65536) && decide (1 ≤ p.wordW)

end Sys2Proof
end

