-- ==== Sys2Proof/Decode.lean ====
section
/-! DEFINITION. From the words on the two input ports to instructions, and back. -/

namespace Sys2Proof

/-- What an input port presents: a command word on `CMD` (30_encoding.md R90) or the level of the
`NOTIFY` line (R94). -/
inductive PortWord where
  | cmd (cw : CmdWord)
  | notify (line : Line)
  deriving DecidableEq, Repr

/-- Why a port word is no instruction (30_encoding.md R96). -/
inductive DecodeReject where
  /-- `op` is not one of `0x01` to `0x08`. -/
  | unknownOpcode
  /-- `rsv` is not 0. -/
  | reservedNotZero
  /-- A field that the operation's format does not use is not 0. -/
  | unusedNotZero
  /-- The `NOTIFY` line is 0: no notification (R94). -/
  | notifyLow
  deriving DecidableEq, Repr

/-- The four command formats (30_encoding.md R90). -/
inductive Format where
  | N
  | I
  | C
  | IC
  deriving DecidableEq, Repr

/-- `CW[63:56]`. -/
def cwOp (cw : CmdWord) : BitVec 8 := cw.extractLsb' 56 8
/-- `CW[55:40]`. -/
def cwRsv (cw : CmdWord) : BitVec 16 := cw.extractLsb' 40 16
/-- `CW[39:24]`. -/
def cwIdx (cw : CmdWord) : BitVec 16 := cw.extractLsb' 24 16
/-- `CW[23:16]`. -/
def cwR (cw : CmdWord) : Byte := cw.extractLsb' 16 8
/-- `CW[15:8]`. -/
def cwG (cw : CmdWord) : Byte := cw.extractLsb' 8 8
/-- `CW[7:0]`. -/
def cwB (cw : CmdWord) : Byte := cw.extractLsb' 0 8
/-- `CW[23:0]`, the packed colour (30_encoding.md R91). -/
def cwColour (cw : CmdWord) : Colour := cw.extractLsb' 0 24

/-- The fields the format does not use are 0 (`rsv` apart, which no format uses). -/
def unusedZero (f : Format) (cw : CmdWord) : Bool :=
  match f with
  | .N => cwIdx cw == 0#16 && cwColour cw == 0#24
  | .I => cwColour cw == 0#24
  | .C => cwIdx cw == 0#16
  | .IC => true

/-- Accept `i` when the word's reserved and unused fields are 0 (30_encoding.md R96). -/
def accept (f : Format) (cw : CmdWord) (i : Instr) : Except DecodeReject Instr :=
  if cwRsv cw ≠ 0#16 then .error .reservedNotZero
  else if unusedZero f cw then .ok i
  else .error .unusedNotZero

/-- The opcode map and operand assembly (30_encoding.md R90, R91, R96): total on every 64-bit word. -/
def decodeCmd (cw : CmdWord) : Except DecodeReject Instr :=
  match (cwOp cw).toNat with
  | 1 => accept .N cw .init
  | 2 => accept .IC cw (.setRgb (cwIdx cw).toNat (cwR cw) (cwG cw) (cwB cw))
  | 3 => accept .IC cw (.setPacked (cwIdx cw).toNat (cwColour cw))
  | 4 => accept .C cw (.fill (cwColour cw))
  | 5 => accept .N cw .clear
  | 6 => accept .N cw .showFrame
  | 7 => accept .I cw (.get (cwIdx cw).toNat)
  | 8 => accept .N cw .status
  | _ => .error .unknownOpcode

/-- A value 1 on the line is one `TC_DONE` (30_encoding.md R94). -/
def decodeNotify (line : Line) : Except DecodeReject Instr :=
  if line = 1#1 then .ok .tcDone else .error .notifyLow

/-- The decoder, total on what either port can present. -/
def decode : PortWord → Except DecodeReject Instr
  | .cmd cw => decodeCmd cw
  | .notify line => decodeNotify line

/-- A command word from its fields, `rsv` 0 (30_encoding.md R90). -/
def mkCmd (op : BitVec 8) (idx : BitVec 16) (c : Colour) : CmdWord :=
  op ++ 0#16 ++ idx ++ c

/-- The encoder, from the tables of 30_encoding.md R90 and R94. -/
def encode : Instr → PortWord
  | .init => .cmd (mkCmd 0x01#8 0#16 0#24)
  | .setRgb idx r g b => .cmd (mkCmd 0x02#8 (BitVec.ofNat 16 idx) (r ++ g ++ b))
  | .setPacked idx c => .cmd (mkCmd 0x03#8 (BitVec.ofNat 16 idx) c)
  | .fill c => .cmd (mkCmd 0x04#8 0#16 c)
  | .clear => .cmd (mkCmd 0x05#8 0#16 0#24)
  | .showFrame => .cmd (mkCmd 0x06#8 0#16 0#24)
  | .get idx => .cmd (mkCmd 0x07#8 (BitVec.ofNat 16 idx) 0#24)
  | .status => .cmd (mkCmd 0x08#8 0#16 0#24)
  | .tcDone => .notify 1#1

/-- One row of spec/opcode_table.json for a command word. -/
structure OpcodeRow where
  pattern : CmdWord
  mask    : CmdWord
  deriving DecidableEq, Repr

/-- The eight command rows of spec/opcode_table.json, in its order (its ninth row, `TC_DONE`, is no
command word). The decoder does not read this list; a statement compares the two. -/
def opcodeRows : List OpcodeRow :=
  [ { pattern := 0x0100000000000000#64, mask := 0xFFFFFFFFFFFFFFFF#64 },
    { pattern := 0x0200000000000000#64, mask := 0xFFFFFF0000000000#64 },
    { pattern := 0x0300000000000000#64, mask := 0xFFFFFF0000000000#64 },
    { pattern := 0x0400000000000000#64, mask := 0xFFFFFFFFFF000000#64 },
    { pattern := 0x0500000000000000#64, mask := 0xFFFFFFFFFFFFFFFF#64 },
    { pattern := 0x0600000000000000#64, mask := 0xFFFFFFFFFFFFFFFF#64 },
    { pattern := 0x0700000000000000#64, mask := 0xFFFFFF0000FFFFFF#64 },
    { pattern := 0x0800000000000000#64, mask := 0xFFFFFFFFFFFFFFFF#64 } ]

/-- The word matches the row. -/
def OpcodeRow.hits (row : OpcodeRow) (cw : CmdWord) : Bool := cw &&& row.mask == row.pattern

/-- The port word a row of the opcode table stands for. The table's command rows have 64 bits and
go to `CMD`; its `TC_DONE` row has one bit, in whole bytes 8, and goes to `NOTIFY`. -/
def tablePortWord (nbits w : Nat) : PortWord :=
  if nbits ≤ 8 then .notify (BitVec.ofNat 1 w) else .cmd (BitVec.ofNat 64 w)

/-- What the decoder reads from the bits `w` of an opcode-table row of `nbits` bits. -/
def decodeTableWord (nbits w : Nat) : Option Instr :=
  match decode (tablePortWord nbits w) with
  | .ok i => some i
  | .error _ => none

end Sys2Proof
end

