-- ==== Sys2Proof/Machine/State.lean ====
section
/-! DEFINITION. The state of the NZR encoder, of the Timer Channel as far as the spec gives it, and of
the ports between them and the host; the reasons a step can stop; the state after power-on. -/

namespace Sys2Proof.Machine

/-- The Transmit Buffer's contents (20_memory.md R50, space TX): pairs (slot, word), slots strictly
rising, no entry equal to `unlistedWord`. The unit of access is a whole word (R56), and no rule
views a word as bytes (R52). -/
abbrev Memory := List (Nat × Nat)

/-- What a slot that the list does not name reads as. 0: `INIT` writes 0 to every slot
(40_init_timing.md R125). DESIGN CHOICE for the time before `INIT`, when nothing can read it: log
entry 9. -/
def unlistedWord : Nat := 0

/-- The retained Timer Channel selection (10_state.md R29). -/
structure TcCfg where
  periph   : OpaqueId
  channel  : OpaqueId
  pin      : OpaqueId
  polarity : Polarity
  deriving DecidableEq, Repr

/-- The buffer argument of `TC.StartDma`: the opaque handle `TXBUF` (20_memory.md R51). -/
inductive BufferHandle where
  | txbuf
  deriving DecidableEq, Repr

/-- The callback argument `CB` of `TC.StartDma`: the block's `NOTIFY` input (30_encoding.md R95). -/
inductive CallbackHandle where
  | notifyInput
  deriving DecidableEq, Repr

/-- The context argument `CTX` of `TC.StartDma`: the one instance (10_state.md R36, 30_encoding.md R94). -/
inductive InstanceHandle where
  | thisInstance
  deriving DecidableEq, Repr

/-- A call on the `TC` port (30_encoding.md R95). `stop` and `stopDma` are in the collaborator's
contract and never emitted (60_exceptions.md R226). -/
inductive TcCall where
  | init (periph channel pin : OpaqueId) (polarity : Polarity) (prescDiv : Nat) (period : Nat)
  | start
  | stop
  | setPwm (value : Nat)
  | startDma (buffer : BufferHandle) (length : Nat) (cb : CallbackHandle) (ctx : InstanceHandle)
  | stopDma
  deriving DecidableEq, Repr

/-- One entry of `tc_trace`: the call, and the channel it is addressed to ("at the configured
channel", 10_state.md R29, 42_show_encoder.md R166). -/
structure TcEmit where
  chan : TcCfg
  call : TcCall
  deriving DecidableEq, Repr

/-- A response on the `RSP` port (30_encoding.md R93). -/
inductive Response where
  /-- `GET`: the packed colour. -/
  | pixel (c : Colour)
  /-- `STATUS`: 1 when ready. -/
  | status (bit : BitVec 1)
  deriving DecidableEq, Repr

/-- The two execution contexts of the host (60_exceptions.md R221). -/
inductive Context where
  | main
  | completion
  deriving DecidableEq, Repr

/-- One entry of the schedule: which agent moves next, and with what (00_scope.md R13,
60_exceptions.md R218). Log entry 3. -/
inductive Event where
  /-- The host issues one command word on `CMD`, from one of its contexts. -/
  | command (ctx : Context) (cw : CmdWord)
  /-- The Timer Channel drives the `NOTIFY` line. -/
  | notify (line : Line)
  /-- The DMA engine has its turn: it takes its enabled step, `BEAT` or `FINISH`, if it has one
  (60_exceptions.md R227). -/
  | dma
  /-- The host presents a configuration record on the `CFG` port (30_encoding.md R89). -/
  | present (c : CfgRecord)
  /-- The Timer Channel settles whether its next burst start succeeds (60_exceptions.md R228). -/
  | chooseStart (succeeds : Bool)
  deriving DecidableEq, Repr

/-- The machine's state. -/
structure State where
  /-- The build parameters (00_scope.md R7 to R10): constant, no step writes them. Log entry 1. -/
  params : Params
  /-- The LED Frame `x[0 .. MAX_CH-1]` (10_state.md R21): register `i` is element `i`. -/
  x : List Pixel
  /-- `active_count` (R22). -/
  activeCount : Nat
  /-- `period` (R24). -/
  period : Nat
  /-- `zero_threshold` (R24). -/
  zeroThreshold : Nat
  /-- `one_threshold` (R24). -/
  oneThreshold : Nat
  /-- The Transmit Buffer `txbuf` (R25). -/
  txbuf : Memory
  /-- The Transfer Readiness Flag (R27): true is `READY`, false is `BUSY`. -/
  ready : Bool
  /-- The lifecycle flag (R28). -/
  inited : Bool
  /-- The retained Timer Channel selection (R29). -/
  tcCfg : TcCfg
  /-- External: the compare register of the configured channel (R32 (a)). -/
  ccr : Nat
  /-- External: the in-flight burst (R32 (b)). -/
  xfer : Xfer
  /-- External: a completion notification that is pending (R32 (c), 60_exceptions.md R217). -/
  notifyPending : Bool
  /-- The calls emitted on the `TC` port, oldest first (R33). -/
  tcTrace : List TcEmit
  /-- The responses given on the `RSP` port, oldest first (00_scope.md R14 (a)). The model's own
  record, as `tcTrace` is. Log entry 4. -/
  rspTrace : List Response
  /-- The record on the `CFG` port, sampled by `INIT` (30_encoding.md R89, R92). -/
  cfgPort : CfgRecord
  /-- The external agent's choice for the next `TC.StartDma`, where an input has settled it
  (60_exceptions.md R228). The model's own field. Log entry 5. -/
  tcStart : Option Bool
  /-- The schedule: the inputs still to come, next first. The model's own field. Log entry 3. -/
  input : List Event
  /-- How many free values have been drawn. The model's own field. Log entries 5, 6, 10. -/
  draws : Nat
  deriving DecidableEq, Repr

/-- Why the machine stops with a fault. The hardware has no fault (60_exceptions.md R210): these mark
accesses to locations that do not exist, which no well-formed state can make. -/
inductive Fault where
  /-- A pixel register at or beyond `MAX_CH` (20_memory.md R50). Raised by the pixel operations and
  `SHOW`, only where `active_count` exceeds the number of registers. Safe. -/
  | pxOutOfRange
  /-- A slot at or beyond `BUF_LEN` (20_memory.md R50). Raised by `SHOW` where `active_count` exceeds
  `MAX_CH`, and by the DMA engine's `BEAT` on a burst longer than the buffer. Safe. -/
  | txOutOfRange
  deriving DecidableEq, Repr

/-- Why a run has no meaning from here on: the spec's `refuse` (93_implementation_defined.md). -/
inductive Refusal where
  /-- An instruction the model has no meaning for yet. Raised by `exec` only. Safe. -/
  | notModelled (mnemonic : String)
  /-- Any operation but `INIT`, or `TC_DONE`, while `inited = false` (40_init_timing.md R128, U1,
  U12). Raised by every meaning but that of `INIT`. Safe. -/
  | notInited
  /-- `INIT` while `inited = true` (40_init_timing.md R128, U1). Raised by `INIT`. Safe. -/
  | alreadyInited
  /-- A command word that decodes to no operation (30_encoding.md R96, U2). Raised by the step. Safe. -/
  | undecodable (why : DecodeReject)
  /-- A command issued from the completion context (60_exceptions.md R220, 20_memory.md R64, U7, U8).
  Raised by the step. Safe. -/
  | commandFromCompletion
  deriving DecidableEq, Repr

/-- The record on the `CFG` port before the host presents one. DESIGN CHOICE, log entry 4. -/
def unsetCfg : CfgRecord :=
  { periph := 0, channel := 0, pin := 0, polarity := .activeHigh, reqCount := 0#16, fClkHz := 0,
    prescDiv := 0, timing := .fractions 0 0 0 0 0 }

/-- Power-on reset (10_state.md R37): `inited = false`, `tc_trace` empty, `xfer = None`; the pixel
registers and `ccr` hold free values (log entries 7, 8); the rest, which `INIT` overwrites before
anything can read it, holds the zeros of log entry 9; no input has arrived. -/
def State.reset : State :=
  { params := Config.params,
    x := (List.range Config.params.maxCh).map Config.powerOnPixel,
    activeCount := 0,
    period := 0,
    zeroThreshold := 0,
    oneThreshold := 0,
    txbuf := [],
    ready := false,
    inited := false,
    tcCfg := { periph := 0, channel := 0, pin := 0, polarity := .activeHigh },
    ccr := (Config.powerOnCcr Config.params.wordW).toNat,
    xfer := .none,
    notifyPending := false,
    tcTrace := [],
    rspTrace := [],
    cfgPort := unsetCfg,
    tcStart := none,
    input := [],
    draws := 0 }

end Sys2Proof.Machine
end

