-- ==== Sys2Proof/Machine/Ops.lean ====
section
/-! DEFINITION. The shared operations: the two stores and their bounds, the calls on the `TC` port with
their effect on the external state, the responses, and taking the completion notification. -/

namespace Sys2Proof.Machine

/-- What an operation answers. -/
abbrev Result := Host.Outcome State Fault Refusal

/-- Go on with the value of an access, or stop with its fault. -/
def withAccess {α : Type} (e : Except Fault α) (k : α → Result) : Result :=
  match e with
  | .ok a => k a
  | .error f => .fault f

/-! ### The sizes of a build -/

/-- `GUARD` as a number (00_scope.md R9). -/
def guardSlots (p : Params) : Nat := if p.guard then 1 else 0

/-- `BUF_LEN = 24 * MAX_CH + 2 * GUARD` (00_scope.md R11). -/
def bufLen (p : Params) : Nat := 24 * p.maxCh + 2 * guardSlots p

/-- The burst length `L = 2 * GUARD + 24 * active_count` (30_encoding.md R86). -/
def burstLen (s : State) : Nat := 2 * guardSlots s.params + 24 * s.activeCount

/-! ### The Transmit Buffer -/

/-- The word at slot `a`. -/
def Memory.read : Memory → Nat → Nat
  | [], _ => unlistedWord
  | (k, w) :: m, a => if k = a then w else Memory.read m a

/-- Write `v` at slot `a`, keeping the slots rising and listing no word that an unlisted slot reads
as anyway. -/
def Memory.write : Memory → Nat → Nat → Memory
  | [], a, v => if v = unlistedWord then [] else [(a, v)]
  | (k, w) :: m, a, v =>
    if a < k then (if v = unlistedWord then (k, w) :: m else (a, v) :: (k, w) :: m)
    else if a = k then (if v = unlistedWord then m else (a, v) :: m)
    else (k, w) :: Memory.write m a v

/-- The canonical form: slots strictly rising, no entry equal to what an unlisted slot reads as. -/
def Memory.wf : Memory → Bool
  | [] => true
  | (k, w) :: m => w != unlistedWord && m.all (fun c => decide (k < c.1)) && Memory.wf m

/-- Every listed slot exists and every listed word fits `WORD_W` bits. -/
def Memory.fits (p : Params) (m : Memory) : Bool :=
  m.all (fun c => decide (c.1 < bufLen p) && decide (c.2 < 2 ^ p.wordW))

/-- Write 0 at each of the slots `0 .. n-1` (40_init_timing.md R125): a write of 0 takes the entry
away. `Laws/Memory.lean` proves it equal to the `n` single writes. -/
def Memory.zeroBelow (n : Nat) (m : Memory) : Memory := m.filter (fun c => decide (n ≤ c.1))

/-- `MemRead(a, 1)` (00_scope.md section 5): a slot at or beyond `BUF_LEN` does not exist
(20_memory.md R50). -/
def txRead (p : Params) (m : Memory) (a : Nat) : Except Fault Nat :=
  if a < bufLen p then .ok (Memory.read m a) else .error .txOutOfRange

/-- `MemWrite(a, 1, v)` (00_scope.md section 5). -/
def txWrite (p : Params) (m : Memory) (a : Nat) (v : Nat) : Except Fault Memory :=
  if a < bufLen p then .ok (Memory.write m a v) else .error .txOutOfRange

/-- The words of the list, one `MemWrite` each, at a cursor that starts at `wp` and moves on by one
(42_show_encoder.md R162). -/
def txWriteFrom (p : Params) (m : Memory) (wp : Nat) : List Nat → Except Fault Memory
  | [] => .ok m
  | v :: vs =>
    match txWrite p m wp v with
    | .ok m' => txWriteFrom p m' (wp + 1) vs
    | .error f => .error f

/-! ### The LED Frame -/

/-- Pixel register `i` (10_state.md R21): a register at or beyond `MAX_CH` does not exist. -/
def pxRead (x : List Pixel) (i : Nat) : Except Fault Pixel :=
  match x[i]? with
  | some px => .ok px
  | none => .error .pxOutOfRange

/-- `x[i] <- px` (00_scope.md section 5). -/
def pxWrite (x : List Pixel) (i : Nat) (px : Pixel) : Except Fault (List Pixel) :=
  if i < x.length then .ok (x.set i px) else .error .pxOutOfRange

/-- `x[i] <- px` for `i` in `0 .. n-1`, increasing (41_pixel_ops.md R143). -/
def pxWriteAll (x : List Pixel) (px : Pixel) : Nat → Except Fault (List Pixel)
  | 0 => .ok x
  | n + 1 =>
    match pxWriteAll x px n with
    | .ok x' => pxWrite x' n px
    | .error f => .error f

/-- The registers `x[0] .. x[n-1]`, each read once, in increasing order (42_show_encoder.md R162). -/
def pxReadAll (x : List Pixel) : Nat → Except Fault (List Pixel)
  | 0 => .ok []
  | n + 1 =>
    match pxReadAll x n with
    | .ok ps =>
      match pxRead x n with
      | .ok px => .ok (ps ++ [px])
      | .error f => .error f
    | .error f => .error f

/-- The access rule (10_state.md R23): a pixel write changes `x[idx]` if and only if
`idx < active_count`; otherwise it is silently ignored. -/
def setChannel (idx : Nat) (px : Pixel) (s : State) : Result :=
  if idx < s.activeCount then
    withAccess (pxWrite s.x idx px) fun x' => .next { s with x := x' }
  else .next s

/-! ### The ports -/

/-- `emit TC.<Call>` (00_scope.md section 5): append the call, addressed to the configured channel,
to `tc_trace`. -/
def emit (c : TcCall) (s : State) : State :=
  { s with tcTrace := s.tcTrace ++ [{ chan := s.tcCfg, call := c }] }

/-- `TC.SetPwm(v)`: `ccr <- v` (60_exceptions.md R224). -/
def emitSetPwm (v : Nat) (s : State) : State :=
  { emit (.setPwm v) s with ccr := v }

/-- Whether the next start succeeds: the input's choice, or a free value (60_exceptions.md R228). -/
def startSucceeds (s : State) : Bool :=
  match s.tcStart with
  | some b => b
  | none => Config.freeStart s.draws

/-- The DMA engine's burst after `TC.StartDma` of `len` words (60_exceptions.md R227): with no burst
in flight, the start succeeds or fails; with one in flight the contract says nothing, and the
result is free (log entry 10). -/
def xferAfterStart (len : Nat) (s : State) : Xfer :=
  match s.xfer with
  | .none => if startSucceeds s then .active len 0 else .dead
  | .active _ _ => Config.freeXfer s.draws
  | .dead => Config.freeXfer s.draws

/-- `TC.StartDma(TXBUF, len, CB, CTX)` (60_exceptions.md R225, R227). -/
def emitStartDma (len : Nat) (s : State) : State :=
  { emit (.startDma .txbuf len .notifyInput .thisInstance) s with
    xfer := xferAfterStart len s
    tcStart := none
    draws := s.draws + 1 }

/-- `respond v` (00_scope.md section 5, 30_encoding.md R93). -/
def respond (r : Response) (s : State) : State :=
  { s with rspTrace := s.rspTrace ++ [r] }

/-! ### The completion notification -/

/-- Entry (60_exceptions.md R219): the delivery clears the pending notification (R217); the block
saves nothing and changes no mode, mask or stack. -/
def enterCompletion (s : State) : State := { s with notifyPending := false }

/-- Return (60_exceptions.md R220): the handler ends without any return action; there is nothing to
restore. -/
def leaveCompletion (s : State) : State := s

end Sys2Proof.Machine
end

