-- ==== Sys2Proof/Machine/Flags.lean ====
section
/-! DEFINITION. The two flags, `ready` and `inited`: their tests and their writes. -/

namespace Sys2Proof.Machine

/-- Every operation but `INIT`, and `TC_DONE`, has a meaning only while `inited = true`
(10_state.md R28, 40_init_timing.md R128). -/
def whenInited (s : State) (k : Result) : Result :=
  if s.inited then k else .refused .notInited

/-- The bit `STATUS` responds: 1 when `ready = true` (30_encoding.md R93). -/
def statusBit (s : State) : BitVec 1 := if s.ready then 1#1 else 0#1

/-- `ready <- true`: the state `READY` (43_handshake_fsm.md R190). -/
def becomeReady (s : State) : State := { s with ready := true }

/-- `ready <- false`: the state `BUSY` (43_handshake_fsm.md R190). -/
def becomeBusy (s : State) : State := { s with ready := false }

/-- `inited <- true` (10_state.md R28). -/
def becomeInited (s : State) : State := { s with inited := true }

end Sys2Proof.Machine
end

