-- ==== Sys2Proof/Machine/Handshake.lean ====
section
/-! DEFINITION. The event `TC_DONE` and the operation `STATUS` (43_handshake_fsm.md). -/

namespace Sys2Proof.Machine

/-- The handler (43_handshake_fsm.md R192, R193): `ready <- true`, then `TC.SetPwm(0)` when
`IDLE_ON_DONE`; the same in `READY` (R194). -/
def completionHandler (s : State) : State :=
  if s.params.idleOnDone then emitSetPwm 0 (becomeReady s) else becomeReady s

/-- `TC_DONE` (43_handshake_fsm.md R192, R195): entry, handler, return. -/
def execTcDone (s : State) : Result :=
  whenInited s (.next (leaveCompletion (completionHandler (enterCompletion s))))

/-- `STATUS` (43_handshake_fsm.md R198). -/
def execStatus (s : State) : Result :=
  whenInited s (.next (respond (.status (statusBit s)) s))

end Sys2Proof.Machine
end

