-- ==== Sys2Proof/Machine/Calculator.lean ====
section
/-! DEFINITION. The symbol-rate period calculator (40_init_timing.md section 2): exact arithmetic on
natural numbers (R120). -/

namespace Sys2Proof.Machine

/-- The three Symbol Timing registers (10_state.md R24). -/
structure Timing where
  period : Nat
  zero   : Nat
  one    : Nat
  deriving DecidableEq, Repr

/-- `f_tick = floor(f_clk_hz / presc_div)` (40_init_timing.md R112). -/
def tickHz (c : CfgRecord) : Nat := c.fClkHz / c.prescDiv

/-- The divisors that R118 asks to be at least 1, `presc_div` apart. -/
def divisorsOk : TimingForm → Bool
  | .fractions fSymHz _ zDen _ oDen => decide (1 ≤ fSymHz) && decide (1 ≤ zDen) && decide (1 ≤ oDen)
  | .durations tSymNs _ _ => decide (1 ≤ tSymNs)

/-- `q`, the number of whole ticks in one symbol (40_init_timing.md R113). -/
def symbolTicks (fTick : Nat) : TimingForm → Nat
  | .fractions fSymHz _ _ _ _ => fTick / fSymHz
  | .durations tSymNs _ _ => fTick * tSymNs / 1000000000

/-- The zero-bit high-time fraction `zf`, as (numerator, denominator) (40_init_timing.md R114). -/
def zeroFraction : TimingForm → Nat × Nat
  | .fractions _ zNum zDen _ _ => (zNum, zDen)
  | .durations tSymNs t0hNs _ => (t0hNs, tSymNs)

/-- The one-bit high-time fraction `of` (40_init_timing.md R114). -/
def oneFraction : TimingForm → Nat × Nat
  | .fractions _ _ _ oNum oDen => (oNum, oDen)
  | .durations tSymNs _ t1hNs => (t1hNs, tSymNs)

/-- `rhu(period * num / den) = floor((2 * period * num + den) / (2 * den))`: to the nearest integer,
ties upward (40_init_timing.md R114, R122). -/
def roundFraction (period : Nat) (frac : Nat × Nat) : Nat :=
  (2 * period * frac.1 + frac.2) / (2 * frac.2)

/-- The three values as computed from `q`, before the check that they fit (R113, R114). -/
def timingOf (q : Nat) (form : TimingForm) : Timing :=
  { period := q - 1,
    zero := roundFraction (q - 1) (zeroFraction form),
    one := roundFraction (q - 1) (oneFraction form) }

/-- Each of the three values is below `2 ^ WORD_W` (40_init_timing.md R118). -/
def Timing.fits (w : Nat) (t : Timing) : Bool :=
  decide (t.period < 2 ^ w) && decide (t.zero < 2 ^ w) && decide (t.one < 2 ^ w)

/-- `derive(CFG)`: `none` is the spec's `ok = false` (40_init_timing.md R118). -/
def derive (w : Nat) (c : CfgRecord) : Option Timing :=
  if decide (1 ≤ c.prescDiv) && divisorsOk c.timing then
    let q := symbolTicks (tickHz c) c.timing
    if 1 ≤ q && (timingOf q c.timing).fits w then some (timingOf q c.timing) else none
  else none

/-- Three independent draws of `WORD_W` bits (40_init_timing.md R118, U3). -/
def drawTiming (w : Nat) (c : CfgRecord) (k : Nat) : Timing :=
  { period := (Config.freeWord w c k).toNat,
    zero := (Config.freeWord w c (k + 1)).toNat,
    one := (Config.freeWord w c (k + 2)).toNat }

/-- What `INIT` writes to the timing registers (40_init_timing.md R110). -/
def timingFor (w : Nat) (c : CfgRecord) (k : Nat) : Timing :=
  match derive w c with
  | some t => t
  | none => drawTiming w c k

/-- `cfg_valid = ok and zero_threshold < one_threshold and one_threshold < period`
(40_init_timing.md R119): a premise for claims, checked by no operation. -/
def cfgValid (w : Nat) (c : CfgRecord) : Bool :=
  match derive w c with
  | some t => decide (t.zero < t.one) && decide (t.one < t.period)
  | none => false

end Sys2Proof.Machine
end

