-- ==== Sys2Proof/Machine/Init.lean ====
section
/-! DEFINITION. The operation `INIT` (40_init_timing.md R110). -/

namespace Sys2Proof.Machine

/-- `active_count <- min(req_count, MAX_CH)` (40_init_timing.md R111). -/
def clampCount (p : Params) (c : CfgRecord) : Nat := min c.reqCount.toNat p.maxCh

/-- The selection that `INIT` retains (10_state.md R29). -/
def tcCfgOf (c : CfgRecord) : TcCfg :=
  { periph := c.periph, channel := c.channel, pin := c.pin, polarity := c.polarity }

/-- The register writes of `INIT`: `active_count`, the timing registers and `tc_cfg`, from the record
on the `CFG` port and the timing `t`. -/
def configure (t : Timing) (s : State) : State :=
  { s with
    activeCount := clampCount s.params s.cfgPort
    period := t.period
    zeroThreshold := t.zero
    oneThreshold := t.one
    tcCfg := tcCfgOf s.cfgPort
    draws := s.draws + 3 }

/-- `TC.Init(periph, channel, pin, polarity, presc_div, period)` (40_init_timing.md R124). -/
def tcInitCall (c : CfgRecord) (period : Nat) : TcCall :=
  .init c.periph c.channel c.pin c.polarity c.prescDiv period

/-- `MemWrite(s, 1, 0)` for every `s` in `0 .. BUF_LEN-1` (40_init_timing.md R125). -/
def zeroBuffer (s : State) : State :=
  { s with txbuf := Memory.zeroBelow (bufLen s.params) s.txbuf }

/-- `INIT` (40_init_timing.md R110): refused when `inited` (R128); otherwise it never fails (R130). -/
def execInit (s : State) : Result :=
  if s.inited then .refused .alreadyInited
  else
    let t := timingFor s.params.wordW s.cfgPort s.draws
    let s1 := emit (tcInitCall s.cfgPort t.period) (configure t s)
    .next (emit .start (becomeInited (becomeReady (zeroBuffer s1))))

end Sys2Proof.Machine
end

