-- ==== Sys2Proof/Machine/Operands.lean ====
section
/-! DEFINITION. Operand forms: packed colours, pulses, the words of a byte and of a pixel, the slot
that holds a bit, and the source's decoding rule. -/

namespace Sys2Proof.Machine

/-- `unpack(c)`: `r = c[23:16]`, `g = c[15:8]`, `b = c[7:0]` (30_encoding.md R81). -/
def unpack (c : Colour) : Pixel :=
  { r := c.extractLsb' 16 8, g := c.extractLsb' 8 8, b := c.extractLsb' 0 8 }

/-- `pack(r, g, b) = {r, g, b}` (30_encoding.md R81). -/
def pack (px : Pixel) : Colour := px.r ++ px.g ++ px.b

/-- `pulse(bit)`: one bit becomes one word (30_encoding.md R82). -/
def pulse (zw ow : Nat) (bit : Bool) : Nat := if bit then ow else zw

/-- `enc8(v)`: one byte becomes 8 words, most significant bit first (30_encoding.md R83). -/
def enc8 (zw ow : Nat) (v : Byte) : List Nat :=
  [7, 6, 5, 4, 3, 2, 1, 0].map fun k => pulse zw ow (v.getLsbD k)

/-- `enc24`: one pixel becomes 24 words, Green, then Red, then Blue (30_encoding.md R84). -/
def enc24 (zw ow : Nat) (px : Pixel) : List Nat :=
  enc8 zw ow px.g ++ enc8 zw ow px.r ++ enc8 zw ow px.b

/-- The data words of a frame, LED by LED in increasing index order (42_show_encoder.md R162). -/
def frameWords (zw ow : Nat) (ps : List Pixel) : List Nat :=
  ps.flatMap (enc24 zw ow)

/-- Field `f` of a pixel: 0 is Green, 1 is Red, 2 is Blue (20_memory.md R54). -/
def fieldByte (f : Fin 3) (px : Pixel) : Byte :=
  match f with
  | 0 => px.g
  | 1 => px.r
  | 2 => px.b

/-- `slot(i, f, b) = GUARD + 24 * i + 8 * f + (7 - b)` (20_memory.md R54). -/
def slot (p : Params) (i : Nat) (f : Fin 3) (b : Fin 8) : Nat :=
  guardSlots p + 24 * i + 8 * f.val + (7 - b.val)

/-- `dec(w)`: 1 when the word is at or above the midpoint of the thresholds (30_encoding.md R87). -/
def dec (zw ow : Nat) (w : Nat) : Bool := decide (zw + ow ≤ 2 * w)

/-- `dec8([w7, ..., w0]) = {dec(w7), ..., dec(w0)}` (30_encoding.md R87): the list is in increasing
slot order, the most significant bit first. -/
def dec8 (zw ow : Nat) (ws : List Nat) : Byte :=
  ws.foldl (fun acc w => (acc <<< 1) ||| (if dec zw ow w then 1#8 else 0#8)) 0#8

end Sys2Proof.Machine
end

