-- ==== Sys2Proof/Machine/Pixels.lean ====
section
/-! DEFINITION. The pixel operations `SET_RGB`, `SET_PACKED`, `FILL`, `CLEAR`, `GET` (41_pixel_ops.md). -/

namespace Sys2Proof.Machine

/-- `SET_RGB idx, r, g, b` (41_pixel_ops.md R141). -/
def execSetRgb (idx : Nat) (r g b : Byte) (s : State) : Result :=
  whenInited s (setChannel idx { r := r, g := g, b := b } s)

/-- `SET_PACKED idx, c` (41_pixel_ops.md R142). -/
def execSetPacked (idx : Nat) (c : Colour) (s : State) : Result :=
  whenInited s (setChannel idx (unpack c) s)

/-- Every active pixel becomes `px` (41_pixel_ops.md R143, R144). -/
def fillWith (px : Pixel) (s : State) : Result :=
  withAccess (pxWriteAll s.x px s.activeCount) fun x' => .next { s with x := x' }

/-- `FILL c` (41_pixel_ops.md R143). -/
def execFill (c : Colour) (s : State) : Result :=
  whenInited s (fillWith (unpack c) s)

/-- `CLEAR` (41_pixel_ops.md R144). -/
def execClear (s : State) : Result :=
  whenInited s (fillWith { r := 0#8, g := 0#8, b := 0#8 } s)

/-- `GET idx` (41_pixel_ops.md R145). -/
def execGet (idx : Nat) (s : State) : Result :=
  whenInited s <|
    if idx < s.activeCount then
      withAccess (pxRead s.x idx) fun px => .next (respond (.pixel (pack px)) s)
    else .next (respond (.pixel 0#24) s)

end Sys2Proof.Machine
end

