-- ==== Sys2Proof/Machine/Show.lean ====
section
/-! DEFINITION. The operation `SHOW`: the pulse encoder and the frame serializer (42_show_encoder.md). -/

namespace Sys2Proof.Machine

/-- `encode_frame` (42_show_encoder.md R162): every active pixel through the pulse encoder into the
Transmit Buffer, from slot `GUARD` on. -/
def encodeFrame (s : State) : Except Fault Memory :=
  match pxReadAll s.x s.activeCount with
  | .ok ps =>
    txWriteFrom s.params s.txbuf (guardSlots s.params)
      (frameWords s.zeroThreshold s.oneThreshold ps)
  | .error f => .error f

/-- What the `READY` branch does after the encoding (42_show_encoder.md R161): `TC.SetPwm(0)`,
`TC.StartDma`, `ready <- false`. -/
def startFrame (m : Memory) (s : State) : State :=
  let s1 := emitSetPwm 0 { s with txbuf := m }
  becomeBusy (emitStartDma (burstLen s) s1)

/-- `SHOW` (42_show_encoder.md R160): a no-op in `BUSY` (R168). -/
def execShow (s : State) : Result :=
  whenInited s <|
    if s.ready then withAccess (encodeFrame s) fun m => .next (startFrame m s)
    else .next s

end Sys2Proof.Machine
end

