-- ==== Sys2Proof/Machine/Dispatch.lean ====
section
/-! DEFINITION. One arm per constructor of `Instr`: each operation's meaning. -/

namespace Sys2Proof.Machine

def exec (i : Instr) (s : State) : Host.Outcome State Fault Refusal :=
  match i with
  | .init => Sys2Proof.Machine.execInit s
  | .setRgb idx r g b => Sys2Proof.Machine.execSetRgb idx r g b s
  | .setPacked idx c => Sys2Proof.Machine.execSetPacked idx c s
  | .fill c => Sys2Proof.Machine.execFill c s
  | .clear => Sys2Proof.Machine.execClear s
  | .showFrame => Sys2Proof.Machine.execShow s
  | .get idx => Sys2Proof.Machine.execGet idx s
  | .status => Sys2Proof.Machine.execStatus s
  | .tcDone => Sys2Proof.Machine.execTcDone s

end Sys2Proof.Machine
end

