-- ==== Sys2Proof/Machine/Dma.lean ====
section
/-! DEFINITION. The steps of the external DMA engine (60_exceptions.md R227). -/

namespace Sys2Proof.Machine

/-- `BEAT`: the word at slot `pos` goes to the compare register, and the burst moves on. -/
def beat (len pos : Nat) (s : State) : Result :=
  withAccess (txRead s.params s.txbuf pos) fun w =>
    .next { s with ccr := w, xfer := .active len (pos + 1) }

/-- `FINISH`: the burst is over and its completion notification is pending until it is delivered
(60_exceptions.md R217; R227 allows the split). -/
def finish (s : State) : State := { s with xfer := .none, notifyPending := true }

/-- The engine's turn: the step that is enabled, `BEAT` while `pos < len`, `FINISH` when `pos = len`;
nothing where neither is. -/
def dmaTurn (s : State) : Result :=
  match s.xfer with
  | .none => .next s
  | .dead => .next s
  | .active len pos =>
    if pos < len then beat len pos s
    else if pos = len then .next (finish s)
    else .next s

end Sys2Proof.Machine
end

