-- ==== Sys2Proof/Machine/Input.lean ====
section
/-! DEFINITION. What one input does: the ports' words are decoded and executed, the DMA engine takes
its turn, the outside world's choices are noted. -/

namespace Sys2Proof.Machine

/-- A word on a port runs the operation it decodes to; a word that decodes to none is refused
(30_encoding.md R96). -/
def runPort (pw : PortWord) (s : State) : Result :=
  match decode pw with
  | .ok i => exec i s
  | .error e => .refused (.undecodable e)

/-- A command from the main context runs; one from the completion context is refused
(60_exceptions.md R221, R220). -/
def runCommand (ctx : Context) (cw : CmdWord) (s : State) : Result :=
  match ctx with
  | .main => runPort (.cmd cw) s
  | .completion => .refused .commandFromCompletion

/-- The line at 1 delivers `TC_DONE`; at 0 nothing happens (30_encoding.md R94). -/
def runNotify (line : Line) (s : State) : Result :=
  if line = 0#1 then .next s else runPort (.notify line) s

/-- One input, in the state whose schedule has moved on past it. -/
def runEvent (e : Event) (s : State) : Result :=
  match e with
  | .command ctx cw => runCommand ctx cw s
  | .notify line => runNotify line s
  | .dma => dmaTurn s
  | .present c => .next { s with cfgPort := c }
  | .chooseStart b => .next { s with tcStart := some b }

/-- The input that a port word arrives as: a command of the main context, or the line. -/
def eventOf : PortWord → Event
  | .cmd cw => .command .main cw
  | .notify line => .notify line

/-- Take the next input of the schedule; with none left, no agent moves (70_reset_and_hazards.md R266,
R267). -/
def runInput (s : State) : Result :=
  match s.input with
  | [] => .next s
  | e :: rest => runEvent e { s with input := rest }

/-- Put a port word in front of the schedule. -/
def withPortWord (pw : PortWord) (s : State) : State :=
  { s with input := eventOf pw :: s.input }

end Sys2Proof.Machine
end

