-- ==== Sys2Proof/Machine/Step.lean ====
section
/-! DEFINITION. The step of the machine: one agent, one input. -/

namespace Sys2Proof.Machine

/-- One step: the next input of the schedule. -/
def step (s : State) : Host.Outcome State Fault Refusal := runInput s

/-- `s` with an operation waiting as its next input. The block has no program counter and fetches
nothing (10_state.md R30): its operations arrive from the caller, one at a time. -/
def State.withFetchWord (s : State) (nbits w : Nat) : State :=
  withPortWord (tablePortWord nbits w) s

end Sys2Proof.Machine
end

