-- ==== Sys2Proof/Safety.lean ====
section
/-! DEFINITION. The words claims use: well-formed states, the handshake's and the buffer's invariants,
the Timer Channel's contract, what a step takes, what a run sends, and when a run is over. -/

namespace Sys2Proof.Machine

/-- A well-formed state: the ranges and widths of 10_state.md R20 and the canonical memory. -/
structure State.WF (s : State) : Prop where
  /-- 00_scope.md R7, R8. -/
  params_wf : s.params.wf = true
  /-- There are `MAX_CH` pixel registers (R21). -/
  x_length : s.x.length = s.params.maxCh
  /-- `active_count` is in `0 .. MAX_CH` (R22). -/
  active_le : s.activeCount ≤ s.params.maxCh
  /-- `WORD_W`-bit registers (R24, R32). -/
  period_lt : s.period < 2 ^ s.params.wordW
  zero_lt : s.zeroThreshold < 2 ^ s.params.wordW
  one_lt : s.oneThreshold < 2 ^ s.params.wordW
  ccr_lt : s.ccr < 2 ^ s.params.wordW
  /-- The Transmit Buffer's list is canonical. -/
  txbuf_wf : Memory.wf s.txbuf = true
  /-- It names only slots that exist, with `WORD_W`-bit words (R25). -/
  txbuf_fits : Memory.fits s.params s.txbuf = true

/-- The handshake's invariant (43_handshake_fsm.md R203 (a), (b); 60_exceptions.md R217): a burst in
flight, or a pending notification, means `BUSY`, never both at once; before `INIT` there is
neither; a burst in flight has the length `L` and has not moved more words than that. -/
structure HandshakeOk (s : State) : Prop where
  ready_idle : s.ready = true → s.xfer = .none ∧ s.notifyPending = false
  pending_over : s.notifyPending = true → s.xfer = .none
  before_init : s.inited = false → s.xfer = .none ∧ s.notifyPending = false
  burst_bounds : ∀ len pos, s.xfer = .active len pos → pos ≤ len ∧ len = burstLen s

/-- The data slots of the frame: `GUARD .. GUARD + 24 * active_count - 1` (42_show_encoder.md R162). -/
def isDataSlot (s : State) (a : Nat) : Bool :=
  decide (guardSlots s.params ≤ a) && decide (a < guardSlots s.params + 24 * s.activeCount)

/-- The Transmit Buffer after `INIT` (42_show_encoder.md R164, R174): a data slot holds 0 (no frame
yet) or one of the two thresholds; every other slot holds 0. -/
structure TxOk (s : State) : Prop where
  data_words : s.inited = true → ∀ a, isDataSlot s a = true →
    Memory.read s.txbuf a = 0 ∨ Memory.read s.txbuf a = s.zeroThreshold ∨
      Memory.read s.txbuf a = s.oneThreshold
  other_words : s.inited = true → ∀ a, isDataSlot s a = false → Memory.read s.txbuf a = 0

/-- The state whose schedule has moved on past its next input. -/
def pastInput (s : State) : State := { s with input := s.input.tail }

/-- The operation or event that the next input is, if it is one the block runs. -/
def nextInstr (s : State) : Option Instr :=
  match s.input with
  | .command .main cw :: _ => (decodeCmd cw).toOption
  | .notify line :: _ => (decodeNotify line).toOption
  | _ => none

/-- The Timer Channel's contract for the next input (60_exceptions.md R217, R225): `TC_DONE` is
delivered only where a completion is pending. -/
def InContract (s : State) : Prop :=
  nextInstr s = some .tcDone → s.notifyPending = true

/-- The next input is a `SHOW` taken in `READY` (42_show_encoder.md R172). -/
def showTaken (s : State) : Bool :=
  decide (nextInstr s = some .showFrame) && s.inited && s.ready

/-- The next input is a `BEAT` (60_exceptions.md R227). -/
def beatNext (s : State) : Bool :=
  match s.input, s.xfer with
  | .dma :: _, .active len pos => decide (pos < len)
  | _, _ => false

/-- A `TC.StartDma` entry of `tc_trace`. -/
def isStartDma (e : TcEmit) : Bool :=
  match e.call with
  | .startDma _ _ _ _ => true
  | .init _ _ _ _ _ _ => false
  | .start => false
  | .stop => false
  | .setPwm _ => false
  | .stopDma => false

/-- The number of `TC.StartDma` entries of `tc_trace` (42_show_encoder.md R172). -/
def startDmaCount (s : State) : Nat := s.tcTrace.countP isStartDma

/-- The calls that the next step emits (60_exceptions.md R229). -/
def callsOfNext (s : State) : List TcCall :=
  match nextInstr s with
  | some .init =>
    [tcInitCall s.cfgPort (timingFor s.params.wordW s.cfgPort s.draws).period, .start]
  | some .showFrame =>
    if s.ready then [.setPwm 0, .startDma .txbuf (burstLen s) .notifyInput .thisInstance] else []
  | some .tcDone => if s.params.idleOnDone then [.setPwm 0] else []
  | some (.setRgb _ _ _ _) => []
  | some (.setPacked _ _) => []
  | some (.fill _) => []
  | some .clear => []
  | some (.get _) => []
  | some .status => []
  | none => []

/-- The words that the DMA engine moves to the compare register in the next `k` steps, in order. -/
def wordsSent : Nat → State → List Nat
  | 0, _ => []
  | k + 1, s =>
    match step s with
    | .next t => if beatNext s then t.ccr :: wordsSent k t else wordsSent k t
    | .fault _ => []
    | .refused _ => []

/-- In the next `k` steps no `TC_DONE` is delivered. -/
def noCompletion : Nat → State → Prop
  | 0, _ => True
  | k + 1, s => nextInstr s ≠ some .tcDone ∧ ∀ t, step s = .next t → noCompletion k t

/-- The instructions one after the other, stopping at the first fault or refusal. -/
def runInstrs : List Instr → State → Result
  | [], s => .next s
  | i :: is, s =>
    match exec i s with
    | .next t => runInstrs is t
    | .fault f => .fault f
    | .refused r => .refused r

/-- No agent but the host has a step (70_reset_and_hazards.md R267). -/
def quiescent (s : State) : Bool :=
  s.inited && s.ready && decide (s.xfer = .none) && !s.notifyPending

/-- A run is over: the host has no further operation and the block is quiescent (R267). -/
def runOver (s : State) : Bool := decide (s.input = []) && quiescent s

/-- Stuck `BUSY`: the start failed and no notification will come (43_handshake_fsm.md R197,
70_reset_and_hazards.md R267). -/
def stuckBusy (s : State) : Bool :=
  s.inited && !s.ready && decide (s.xfer = .dead) && !s.notifyPending

/-- Two states that differ at most in the pixel registers' values and in what carries them: the
buffer's words, the compare register and the responses. -/
structure SameButPixels (s t : State) : Prop where
  same_length : s.x.length = t.x.length
  same_rest : t = { s with
    x := t.x, txbuf := t.txbuf, ccr := t.ccr, rspTrace := t.rspTrace }

end Sys2Proof.Machine
end

