-- ==== Sys2Proof/Certificates/Slice0/Obligations.lean ====
section
/-! DEFINITION. The statements about this machine, for the provers. -/

open Sys2Proof Sys2Proof.Machine

/-! ### Encoding and the step -/

/-- Decoding an encoded well-formed instruction gives it back, every operand at every value. The
encoding is the spec's own (30_encoding.md Part B, decision D9). -/
def Obligations.DecodeOfEncodeGivesInstruction : Prop :=
  ∀ i : Instr, i.wf = true → decode (encode i) = .ok i

/-- The other direction: what decodes is well formed and encodes to the same port word, so each
word has one meaning (decision D9). -/
def Obligations.EncodeOfDecodeGivesWord : Prop :=
  ∀ (pw : PortWord) (i : Instr), decode pw = .ok i → i.wf = true ∧ encode i = pw

/-- A command word is decodable exactly when it matches a row of spec/opcode_table.json, and no word
matches two rows (30_encoding.md section B.5, decision D10). -/
def Obligations.DecodableWordsAreTheTableRows : Prop :=
  ∀ cw : CmdWord,
    ((∃ i, decodeCmd cw = .ok i) ↔ ∃ row ∈ opcodeRows, row.hits cw = true) ∧
    ∀ r1 ∈ opcodeRows, ∀ r2 ∈ opcodeRows, r1.hits cw = true → r2.hits cw = true → r1 = r2

/-- Words written out from the spec's encoding decode to the instructions they stand for, one of
each format (decision D9), and the `NOTIFY` line at 1 is `TC_DONE`. -/
def Obligations.SpecWordsDecode : Prop :=
  decodeCmd 0x0100000000000000#64 = .ok .init ∧
  decodeCmd 0x020000000100FF00#64 = .ok (.setRgb 1 0 255 0) ∧
  decodeCmd 0x0300000005123456#64 = .ok (.setPacked 5 0x123456#24) ∧
  decodeCmd 0x0400000000123456#64 = .ok (.fill 0x123456#24) ∧
  decodeCmd 0x0700000003000000#64 = .ok (.get 3) ∧
  decodeCmd 0x0800000000000000#64 = .ok .status ∧
  decodeNotify 1#1 = .ok .tcDone

/-- A step runs the operation that the next input decodes to, in the state whose schedule has moved
on past that input; and a word placed by `withFetchWord` is that next input. -/
def Obligations.StepRunsDecodedInstruction : Prop :=
  (∀ (s : State) (cw : CmdWord) (rest : List Event) (i : Instr),
    s.input = .command .main cw :: rest → decodeCmd cw = .ok i →
      step s = exec i { s with input := rest }) ∧
  (∀ (s : State) (rest : List Event),
    s.input = .notify 1#1 :: rest → step s = exec .tcDone { s with input := rest }) ∧
  (∀ (s : State) (nbits w : Nat) (i : Instr),
    decodeTableWord nbits w = some i → step (s.withFetchWord nbits w) = exec i s)

/-- What a step does with the inputs that run no operation: an undecodable word and a command from
the completion context are refused by name (decision D10; 93_implementation_defined.md U2, U7, U8;
that the context is a label on the command is this model's choice, log entry 20); a `NOTIFY` line
at 0 changes nothing (deduced, log entry 14); a record on `CFG` and a choice of the Timer Channel
change only their own field (the model's choices, log entries 4 and 5); with no input left nothing
moves (the model's choice, log entry 3). -/
def Obligations.OtherInputsDoOnlyTheirOwn : Prop :=
  (∀ (s : State) (cw : CmdWord) (rest : List Event) (e : DecodeReject),
    s.input = .command .main cw :: rest → decodeCmd cw = .error e →
      step s = .refused (.undecodable e)) ∧
  (∀ (s : State) (cw : CmdWord) (rest : List Event),
    s.input = .command .completion cw :: rest → step s = .refused .commandFromCompletion) ∧
  (∀ (s : State) (rest : List Event),
    s.input = .notify 0#1 :: rest → step s = .next { s with input := rest }) ∧
  (∀ (s : State) (c : CfgRecord) (rest : List Event),
    s.input = .present c :: rest → step s = .next { s with input := rest, cfgPort := c }) ∧
  (∀ (s : State) (b : Bool) (rest : List Event),
    s.input = .chooseStart b :: rest → step s = .next { s with input := rest, tcStart := some b }) ∧
  (∀ s : State, s.input = [] → step s = .next s)

/-- `unpack` and `pack` are inverse to each other (30_encoding.md section A; the layout 0xRRGGBB is
the spec's decision D8). -/
def Obligations.PackAndUnpackAreInverse : Prop :=
  (∀ px : Pixel, unpack (pack px) = px) ∧ ∀ c : Colour, pack (unpack c) = c

/-- Operations that the lifecycle flag rules out are refused by name (decision D6). -/
def Obligations.LifecycleRefusals : Prop :=
  (∀ (i : Instr) (s : State), i ≠ .init → s.inited = false → exec i s = .refused .notInited) ∧
  ∀ s : State, s.inited = true → exec .init s = .refused .alreadyInited

/-! ### `INIT` and the calculator -/

/-- `INIT` of a block that is not initialised completes, whatever the record (40_init_timing.md
section 1 and 10_state.md section 10): the flags, the clamp, the retained selection, the two
emitted calls (decisions D17, D18), all of `txbuf` zero, and nothing else written: not the pixel
registers, not `ccr` (decision D7), not the external burst. -/
def Obligations.InitEstablishesInitialState : Prop :=
  ∀ s : State, s.inited = false → ∃ t : State, exec .init s = .next t ∧
    t.inited = true ∧ t.ready = true ∧
    t.activeCount = min s.cfgPort.reqCount.toNat s.params.maxCh ∧
    t.tcCfg = { periph := s.cfgPort.periph, channel := s.cfgPort.channel,
                pin := s.cfgPort.pin, polarity := s.cfgPort.polarity } ∧
    t.tcTrace = s.tcTrace ++
      [{ chan := t.tcCfg,
         call := .init s.cfgPort.periph s.cfgPort.channel s.cfgPort.pin s.cfgPort.polarity
           s.cfgPort.prescDiv t.period },
       { chan := t.tcCfg, call := .start }] ∧
    (∀ a, Memory.read t.txbuf a = if a < bufLen s.params then 0 else Memory.read s.txbuf a) ∧
    t = { s with
      inited := true, ready := true, activeCount := t.activeCount, tcCfg := t.tcCfg,
      tcTrace := t.tcTrace, txbuf := t.txbuf, period := t.period,
      zeroThreshold := t.zeroThreshold, oneThreshold := t.oneThreshold, draws := t.draws }

/-- 10_state.md R22: `active_count` is set once, by `INIT`, clamped to the maximum, is in
`0 .. MAX_CH`, and nothing writes it afterwards. -/
def Obligations.ActiveCountIsSetOnceAndClamped : Prop :=
  (∀ s : State, s.inited = false → ∃ t, exec .init s = .next t ∧
    t.activeCount = min s.cfgPort.reqCount.toNat s.params.maxCh ∧
    t.activeCount ≤ t.params.maxCh ∧ t.inited = true) ∧
  (∀ s t : State, s.inited = true → step s = .next t →
    t.activeCount = s.activeCount ∧ t.inited = true) ∧
  ∀ s t : State, step s = .next t → nextInstr s ≠ some .init → t.activeCount = s.activeCount

/-- 40_init_timing.md R125: `INIT` writes 0 to all `BUF_LEN` words, and this is the one and only
write to every slot that holds no data word, the guard slots among them. -/
def Obligations.InitZeroesBufferAndIsOnlyGuardWrite : Prop :=
  (∀ s : State, s.inited = false → ∃ t, exec .init s = .next t ∧
    ∀ a, a < bufLen s.params → Memory.read t.txbuf a = 0) ∧
  ∀ s t : State, s.inited = true → step s = .next t →
    ∀ a, (a < guardSlots s.params ∨ guardSlots s.params + 24 * s.activeCount ≤ a) →
      Memory.read t.txbuf a = Memory.read s.txbuf a

/-- The registers that `INIT` derives from a form A record (40_init_timing.md section 2, decisions
D14 and D15: floor division, round half up). -/
def Obligations.FractionRecordGivesTheseRegisters : Prop :=
  ∀ (s : State) (fSym zNum zDen oNum oDen q : Nat),
    s.inited = false → s.cfgPort.timing = .fractions fSym zNum zDen oNum oDen →
    1 ≤ s.cfgPort.prescDiv → 1 ≤ fSym → 1 ≤ zDen → 1 ≤ oDen →
    q = s.cfgPort.fClkHz / s.cfgPort.prescDiv / fSym → 1 ≤ q →
    q - 1 < 2 ^ s.params.wordW →
    (2 * (q - 1) * zNum + zDen) / (2 * zDen) < 2 ^ s.params.wordW →
    (2 * (q - 1) * oNum + oDen) / (2 * oDen) < 2 ^ s.params.wordW →
    ∃ t, exec .init s = .next t ∧ t.period = q - 1 ∧
      t.zeroThreshold = (2 * (q - 1) * zNum + zDen) / (2 * zDen) ∧
      t.oneThreshold = (2 * (q - 1) * oNum + oDen) / (2 * oDen)

/-- The registers that `INIT` derives from a form B record (40_init_timing.md section 2, decisions
D14 and D15). -/
def Obligations.DurationRecordGivesTheseRegisters : Prop :=
  ∀ (s : State) (tSym t0h t1h q : Nat),
    s.inited = false → s.cfgPort.timing = .durations tSym t0h t1h →
    1 ≤ s.cfgPort.prescDiv → 1 ≤ tSym →
    q = s.cfgPort.fClkHz / s.cfgPort.prescDiv * tSym / 1000000000 → 1 ≤ q →
    q - 1 < 2 ^ s.params.wordW →
    (2 * (q - 1) * t0h + tSym) / (2 * tSym) < 2 ^ s.params.wordW →
    (2 * (q - 1) * t1h + tSym) / (2 * tSym) < 2 ^ s.params.wordW →
    ∃ t, exec .init s = .next t ∧ t.period = q - 1 ∧
      t.zeroThreshold = (2 * (q - 1) * t0h + tSym) / (2 * tSym) ∧
      t.oneThreshold = (2 * (q - 1) * t1h + tSym) / (2 * tSym)

/-- When the timing arithmetic has no result (a zero divisor, `q = 0`, or a value too wide), `INIT`
still completes and each timing register holds some `WORD_W`-bit value (40_init_timing.md section
2, decision D16). The value is free: nothing here says which (log entry 6). -/
def Obligations.MisconfiguredInitStillCompletes : Prop :=
  ∀ (s : State) (q : Nat), s.inited = false →
    q = symbolTicks (s.cfgPort.fClkHz / s.cfgPort.prescDiv) s.cfgPort.timing →
    (s.cfgPort.prescDiv = 0 ∨ divisorsOk s.cfgPort.timing = false ∨ q = 0 ∨
      2 ^ s.params.wordW ≤ q - 1 ∨
      2 ^ s.params.wordW ≤ roundFraction (q - 1) (zeroFraction s.cfgPort.timing) ∨
      2 ^ s.params.wordW ≤ roundFraction (q - 1) (oneFraction s.cfgPort.timing)) →
    ∃ t, exec .init s = .next t ∧ t.ready = true ∧
      (∃ v : BitVec s.params.wordW, t.period = v.toNat) ∧
      (∃ v : BitVec s.params.wordW, t.zeroThreshold = v.toNat) ∧
      ∃ v : BitVec s.params.wordW, t.oneThreshold = v.toNat

/-- The two configuration forms agree (40_init_timing.md section 2): a form B record whose
`t_sym_ns` divides `10^9` gives what the form A record of the same frequency and fractions gives,
and has no result exactly when that has none. -/
def Obligations.ConfigurationFormsAgree : Prop :=
  ∀ (w : Nat) (c : CfgRecord) (tSym t0h t1h fSym zNum zDen oNum oDen : Nat),
    tSym * fSym = 1000000000 → 1 ≤ zDen → 1 ≤ oDen →
    zNum * tSym = t0h * zDen → oNum * tSym = t1h * oDen →
    derive w { c with timing := .durations tSym t0h t1h } =
      derive w { c with timing := .fractions fSym zNum zDen oNum oDen }

/-- Rounding is to the nearest integer with ties upward (40_init_timing.md section 3, decision D15):
`k` is the result exactly when `k - 1/2 <= period * num / den < k + 1/2`. -/
def Obligations.RoundingIsNearestTiesUpward : Prop :=
  ∀ period num den k : Nat, 1 ≤ den →
    (roundFraction period (num, den) = k ↔
      2 * k * den ≤ 2 * period * num + den ∧ 2 * period * num < (2 * k + 1) * den)

/-- The realised symbol is within one tick of the request and never longer (40_init_timing.md
section 2): `period + 1` ticks fit the requested duration and one more would not. -/
def Obligations.RealisedSymbolIsWithinOneTick : Prop :=
  (∀ (w : Nat) (c : CfgRecord) (t : Timing) (fSym zNum zDen oNum oDen : Nat),
    c.timing = .fractions fSym zNum zDen oNum oDen → derive w c = some t →
      (t.period + 1) * fSym ≤ tickHz c ∧ tickHz c < (t.period + 2) * fSym) ∧
  ∀ (w : Nat) (c : CfgRecord) (t : Timing) (tSym t0h t1h : Nat),
    c.timing = .durations tSym t0h t1h → derive w c = some t →
      (t.period + 1) * 1000000000 ≤ tickHz c * tSym ∧
        tickHz c * tSym < (t.period + 2) * 1000000000

/-! ### The pixel operations -/

/-- 10_state.md R23: a write operation with index `idx` changes `x[idx]` if and only if
`idx < active_count`; a write at or beyond `active_count`, even where storage exists, is a no-op,
and `FILL` and `CLEAR` write no register there either. No other register and no other state is
written. (Which bits of a packed colour `unpack` gives which channel is the spec's decision D8, no
part of this rule.) -/
def Obligations.PixelWritesObeyTheAccessRule : Prop :=
  ∀ s : State, s.WF → s.inited = true →
    (∀ (idx : Nat) (r g b : Byte), ∃ t, exec (.setRgb idx r g b) s = .next t ∧
      (idx < s.activeCount → pxRead t.x idx = .ok { r := r, g := g, b := b }) ∧
      (s.activeCount ≤ idx → t = s) ∧
      (∀ j, j ≠ idx → pxRead t.x j = pxRead s.x j) ∧ t = { s with x := t.x }) ∧
    (∀ (idx : Nat) (c : Colour), ∃ t, exec (.setPacked idx c) s = .next t ∧
      (idx < s.activeCount → pxRead t.x idx = .ok (unpack c)) ∧
      (s.activeCount ≤ idx → t = s) ∧
      (∀ j, j ≠ idx → pxRead t.x j = pxRead s.x j) ∧ t = { s with x := t.x }) ∧
    (∀ c : Colour, ∃ t, exec (.fill c) s = .next t ∧
      (∀ j, s.activeCount ≤ j → pxRead t.x j = pxRead s.x j) ∧ t = { s with x := t.x }) ∧
    ∃ t, exec .clear s = .next t ∧
      (∀ j, s.activeCount ≤ j → pxRead t.x j = pxRead s.x j) ∧ t = { s with x := t.x }

/-- `SET_PACKED`, `FILL` and `CLEAR` are the source's expansions of `SetChannel` (30_encoding.md
section B.7; the packed layout is decision D8). -/
def Obligations.ConvenienceFormsAreExpansions : Prop :=
  (∀ (s : State) (idx : Nat) (c : Colour), exec (.setPacked idx c) s =
    exec (.setRgb idx (c.extractLsb' 16 8) (c.extractLsb' 8 8) (c.extractLsb' 0 8)) s) ∧
  (∀ (s : State) (c : Colour), s.WF → s.inited = true → exec (.fill c) s =
    runInstrs ((List.range s.activeCount).map fun i => .setPacked i c) s) ∧
  ∀ s : State, exec .clear s = exec (.fill 0#24) s

/-- `FILL` and `CLEAR` complete and leave their colour in every active register (41_pixel_ops.md;
the packed layout is decision D8), and doing either twice is doing it once. -/
def Obligations.FillAndClearWriteEveryActivePixel : Prop :=
  ∀ s : State, s.WF → s.inited = true →
    (∀ c : Colour, ∃ t, exec (.fill c) s = .next t ∧
      (∀ i, i < s.activeCount → pxRead t.x i =
        .ok { r := c.extractLsb' 16 8, g := c.extractLsb' 8 8, b := c.extractLsb' 0 8 }) ∧
      exec (.fill c) t = .next t) ∧
    ∃ t, exec .clear s = .next t ∧
      (∀ i, i < s.activeCount → pxRead t.x i = .ok { r := 0#8, g := 0#8, b := 0#8 }) ∧
      exec .clear t = .next t

/-- `GET` completes: it responds the packed colour of an active register, and 0 at or beyond
`active_count`, and writes no state of the block (41_pixel_ops.md, decision D11). -/
def Obligations.GetRespondsPixelOrZero : Prop :=
  ∀ (s : State) (idx : Nat), s.WF → s.inited = true →
    (idx < s.activeCount → ∃ px, pxRead s.x idx = .ok px ∧
      exec (.get idx) s =
        .next { s with rspTrace := s.rspTrace ++ [.pixel (px.r ++ px.g ++ px.b)] }) ∧
    (s.activeCount ≤ idx →
      exec (.get idx) s = .next { s with rspTrace := s.rspTrace ++ [.pixel 0#24] })

/-- What is written is read back at once, in every form of the write (41_pixel_ops.md laws (a) to
(c), decisions D8 and D11). -/
def Obligations.GetAfterWriteRespondsWritten : Prop :=
  ∀ (s : State) (i : Nat), s.WF → s.inited = true → i < s.activeCount →
    (∀ r g b : Byte, ∃ t, runInstrs [.setRgb i r g b, .get i] s = .next t ∧
      t.rspTrace = s.rspTrace ++ [.pixel (r ++ g ++ b)]) ∧
    (∀ c : Colour, ∃ t, runInstrs [.setPacked i c, .get i] s = .next t ∧
      t.rspTrace = s.rspTrace ++ [.pixel c]) ∧
    ∀ c : Colour, ∃ t, runInstrs [.fill c, .get i] s = .next t ∧
      t.rspTrace = s.rspTrace ++ [.pixel c]

/-- 41_pixel_ops.md R146: no pixel operation has an effect outside the LED Frame (`GET`'s response
apart, which is decision D11): the buffer, `ccr`, the emitted calls and the burst in flight are
unchanged; and each completes, in `READY` as in `BUSY`. -/
def Obligations.PixelOperationsStayInTheLedFrame : Prop :=
  ∀ (s : State) (i : Instr), s.WF → s.inited = true →
    ((∃ idx r g b, i = .setRgb idx r g b) ∨ (∃ idx c, i = .setPacked idx c) ∨
      (∃ c, i = .fill c) ∨ i = .clear ∨ ∃ idx, i = .get idx) →
    ∃ t, exec i s = .next t ∧ t = { s with x := t.x, rspTrace := t.rspTrace } ∧
      ((∀ idx, i ≠ .get idx) → t.rspTrace = s.rspTrace) ∧ (∀ idx, i = .get idx → t.x = s.x)

/-! ### `SHOW` -/

/-- 42_show_encoder.md R161, R165, R167: in `READY`, `SHOW` emits `TC.SetPwm(0)` and then
`TC.StartDma`, sets `ccr` to 0 and ends `BUSY`, whatever the Timer Channel does with the start; in
`BUSY` it emits neither. -/
def Obligations.ShowResetsCompareStartsBurstGoesBusy : Prop :=
  (∀ s : State, s.WF → s.inited = true → s.ready = true →
    ∃ t len, exec .showFrame s = .next t ∧
      t.tcTrace = s.tcTrace ++ [{ chan := s.tcCfg, call := .setPwm 0 },
        { chan := s.tcCfg, call := .startDma .txbuf len .notifyInput .thisInstance }] ∧
      t.ccr = 0 ∧ t.ready = false) ∧
  ∀ s t : State, s.ready = false → exec .showFrame s = .next t →
    t.tcTrace = s.tcTrace ∧ t.ccr = s.ccr

/-- 30_encoding.md R82, R83, R84: after a `SHOW` taken in `READY` the 24 words of pixel `i` are its
Green, then its Red, then its Blue byte, each most significant bit first, a 1 bit as
`one_threshold` and a 0 bit as `zero_threshold`, with the thresholds held at that `SHOW`. -/
def Obligations.ShowEncodesGreenRedBlueMsbFirst : Prop :=
  ∀ s : State, s.WF → s.inited = true → s.ready = true →
    ∃ t, exec .showFrame s = .next t ∧
      ∀ (i : Nat) (px : Pixel) (k : Nat), i < s.activeCount → pxRead s.x i = .ok px → k < 8 →
        Memory.read t.txbuf (guardSlots s.params + 24 * i + k) =
          (if px.g.getLsbD (7 - k) then s.oneThreshold else s.zeroThreshold) ∧
        Memory.read t.txbuf (guardSlots s.params + 24 * i + 8 + k) =
          (if px.r.getLsbD (7 - k) then s.oneThreshold else s.zeroThreshold) ∧
        Memory.read t.txbuf (guardSlots s.params + 24 * i + 16 + k) =
          (if px.b.getLsbD (7 - k) then s.oneThreshold else s.zeroThreshold)

/-- What `SHOW` in `READY` leaves alone, and its burst (42_show_encoder.md; the length `L` is
decision D13): every slot but the data slots, and every register but `ready`; the external burst is
one of length `L` or a failed one, as the start's choice has it (decision D28; where the choice is
kept is this model's, log entry 5). -/
def Obligations.ShowChangesOnlyDataSlotsAndBurst : Prop :=
  ∀ s : State, s.WF → s.inited = true → s.ready = true →
    ∃ t, exec .showFrame s = .next t ∧
      (∀ a, (a < guardSlots s.params ∨ guardSlots s.params + 24 * s.activeCount ≤ a) →
        Memory.read t.txbuf a = Memory.read s.txbuf a) ∧
      t = { s with
        txbuf := t.txbuf, ccr := 0, ready := false, tcTrace := t.tcTrace,
        xfer := t.xfer, tcStart := none, draws := t.draws } ∧
      (t.tcTrace.getLast?).map TcEmit.call = some
        (.startDma .txbuf (2 * guardSlots s.params + 24 * s.activeCount) .notifyInput
          .thisInstance) ∧
      (s.xfer = .none →
        (s.tcStart = some true →
          t.xfer = .active (2 * guardSlots s.params + 24 * s.activeCount) 0) ∧
        (s.tcStart = some false → t.xfer = .dead) ∧
        (s.tcStart = none →
          t.xfer = .active (2 * guardSlots s.params + 24 * s.activeCount) 0 ∨ t.xfer = .dead))

/-- 60_exceptions.md R214: `SHOW` in `BUSY` is dropped: it completes and no state at all is changed,
so nothing is queued, emitted or responded. -/
def Obligations.ShowInBusyIsDropped : Prop :=
  ∀ s : State, s.inited = true → s.ready = false → exec .showFrame s = .next s

/-- 30_encoding.md R87: the source's decoding rule gives every byte back when
`zero_threshold < one_threshold`; with equal thresholds every word decodes to 1, so the property
fails. -/
def Obligations.DecodingTheWordsGivesTheByte : Prop :=
  (∀ (zw ow : Nat) (w : Nat), dec zw ow w = true ↔ zw + ow ≤ 2 * w) ∧
  (∀ (zw ow : Nat) (v : Byte), zw < ow → dec8 zw ow (enc8 zw ow v) = v) ∧
  ∀ (zw : Nat) (v : Byte), dec8 zw zw (enc8 zw zw v) = 0xFF#8

/-- The frame that a `SHOW` in `READY` leaves decodes, field by field, to the pixels it was taken
from, as long as `zero_threshold < one_threshold` (30_encoding.md section A, 42_show_encoder.md;
the source's decoding rule). It joins `ShowEncodesGreenRedBlueMsbFirst` and
`DecodingTheWordsGivesTheByte`. -/
def Obligations.ShownFrameDecodesToThePixels : Prop :=
  ∀ s : State, s.WF → s.inited = true → s.ready = true → s.zeroThreshold < s.oneThreshold →
    ∃ t, exec .showFrame s = .next t ∧
      ∀ (i : Nat) (px : Pixel) (f : Fin 3), i < s.activeCount → pxRead s.x i = .ok px →
        dec8 t.zeroThreshold t.oneThreshold ((List.range 8).map fun k =>
          Memory.read t.txbuf (guardSlots s.params + 24 * i + 8 * f.val + k)) = fieldByte f px

/-- The slot formula (20_memory.md section 4): distinct bits have distinct slots, and the slots of
the first `n` LEDs are exactly those from `GUARD` up to `GUARD + 24 * n`, all inside the buffer
when `n <= MAX_CH`. -/
def Obligations.SlotsAreDistinctAndInRange : Prop :=
  (∀ (p : Params) (i j : Nat) (f e : Fin 3) (b d : Fin 8),
    slot p i f b = slot p j e d → i = j ∧ f = e ∧ b = d) ∧
  (∀ (p : Params) (n a : Nat),
    (guardSlots p ≤ a ∧ a < guardSlots p + 24 * n) ↔ ∃ i f b, i < n ∧ slot p i f b = a) ∧
  ∀ (p : Params) (i : Nat) (f : Fin 3) (b : Fin 8), i < p.maxCh → slot p i f b < bufLen p

/-! ### The handshake -/

/-- The handler (43_handshake_fsm.md sections 1 and 2): `TC_DONE` writes `ready <- true`, and with
`IDLE_ON_DONE` it also emits `TC.SetPwm(0)`; it touches nothing else (its delivery clears the
pending notification); it is one step, so it does not block. That it does the same in `READY`, and
is refused before `INIT`, is the spec's decision D21; that it runs with nothing pending or with a
burst in flight is this model's choice, log entry 12. -/
def Obligations.CompletionHandlerSetsReady : Prop :=
  (∀ s : State, s.inited = true → s.params.idleOnDone = false →
    exec .tcDone s = .next { s with ready := true, notifyPending := false }) ∧
  (∀ s : State, s.inited = true → s.params.idleOnDone = true →
    exec .tcDone s = .next { s with
      ready := true, notifyPending := false, ccr := 0,
      tcTrace := s.tcTrace ++ [{ chan := s.tcCfg, call := .setPwm 0 }] }) ∧
  ∀ s : State, s.inited = false → exec .tcDone s = .refused .notInited

/-- `STATUS` completes, responds 1 when `ready` and 0 otherwise, and writes no state of the block
(43_handshake_fsm.md section 1, decision D12). -/
def Obligations.StatusRespondsReadiness : Prop :=
  ∀ s : State, s.inited = true → exec .status s =
    .next { s with rspTrace := s.rspTrace ++ [.status (if s.ready then 1#1 else 0#1)] }

/-- The transition table of the readiness flag, for every step from every initialised state
(43_handshake_fsm.md section 1; `TC_DONE` in `READY` is decision D21): `SHOW` leads to `BUSY`,
`TC_DONE` to `READY`, nothing else moves it. -/
def Obligations.ReadinessMovesOnlyByShowAndCompletion : Prop :=
  ∀ s t : State, s.inited = true → step s = .next t →
    t.ready = (if nextInstr s = some .showFrame then false
      else if nextInstr s = some .tcDone then true else s.ready)

/-- What no step changes once the block is initialised: the lifecycle flag, `active_count`, the
timing registers, `tc_cfg`; and no step at all changes the build parameters (10_state.md sections
2 to 6, 10; the parameters are held in the state by this model's choice, log entry 1). -/
def Obligations.ConfigurationIsFixedAfterInit : Prop :=
  (∀ s t : State, step s = .next t → t.params = s.params) ∧
  ∀ s t : State, s.inited = true → step s = .next t →
    t.inited = true ∧ t.activeCount = s.activeCount ∧ t.period = s.period ∧
      t.zeroThreshold = s.zeroThreshold ∧ t.oneThreshold = s.oneThreshold ∧ t.tcCfg = s.tcCfg

/-- What the block emits, and when; nothing else is ever emitted (60_exceptions.md section 4,
decisions D13, D17, D18). That an entry carries the channel it is addressed to, the retained
`tc_cfg` (10_state.md section 6, decision D19), is this model's choice, log entry 15. -/
def Obligations.EmittedCallsAreThoseOfTheTable : Prop :=
  ∀ s t : State, step s = .next t →
    t.tcTrace = s.tcTrace ++ (callsOfNext s).map fun c => { chan := t.tcCfg, call := c }

/-- The counting law (42_show_encoder.md section on counting): a step emits one `TC.StartDma` when it
is a `SHOW` taken in `READY`, and none otherwise. -/
def Obligations.OneStartDmaPerReadyShow : Prop :=
  ∀ s t : State, step s = .next t →
    startDmaCount t = startDmaCount s + (if showTaken s then 1 else 0)

/-- Only `GET` and `STATUS` respond, and each once (30_encoding.md section B.4, decisions D11, D12;
the list of responses is this model's record, log entry 4). -/
def Obligations.OnlyGetAndStatusRespond : Prop :=
  ∀ s t : State, step s = .next t →
    (t.rspTrace = s.rspTrace ∧ (∀ idx, nextInstr s ≠ some (.get idx)) ∧
      nextInstr s ≠ some .status) ∨
    ((∃ c, t.rspTrace = s.rspTrace ++ [.pixel c]) ∧ ∃ idx, nextInstr s = some (.get idx)) ∨
    ((∃ b, t.rspTrace = s.rspTrace ++ [.status b]) ∧ nextInstr s = some .status)

/-- The buffer is a snapshot (20_memory.md section 6): a step that changes any slot is `INIT`, or a
`SHOW` taken in `READY`. -/
def Obligations.BufferChangesOnlyByInitOrReadyShow : Prop :=
  ∀ s t : State, step s = .next t → t.txbuf ≠ s.txbuf →
    (nextInstr s = some .init ∧ s.inited = false) ∨ showTaken s = true

/-- 43_handshake_fsm.md R197: `BUSY` can be permanent. Without a `TC_DONE` no step leaves `BUSY`, so
a stalled burst leaves the block there; a failed start is a stuck state that every step inside the
Timer Channel's contract keeps, emitting nothing (no `TC.StopDma`); in it every `SHOW` is dropped,
the pixel operations, `GET` and `STATUS` go on working, and `INIT` cannot be repeated. -/
def Obligations.StuckBusyIsPermanent : Prop :=
  (∀ s t : State, s.inited = true → s.ready = false → nextInstr s ≠ some .tcDone →
    step s = .next t → t.inited = true ∧ t.ready = false) ∧
  (∀ s t : State, stuckBusy s = true → InContract s → step s = .next t →
    stuckBusy t = true ∧ t.tcTrace = s.tcTrace) ∧
  ∀ s : State, stuckBusy s = true →
    exec .showFrame s = .next s ∧ exec .init s = .refused .alreadyInited ∧
    (s.WF → ∀ i : Instr, i ≠ .init → i ≠ .showFrame → i ≠ .tcDone →
      ∃ t, exec i s = .next t ∧ stuckBusy t = true)

/-! ### The DMA engine -/

/-- The external agent's steps (60_exceptions.md section 4, decisions D28, D32): a `BEAT` moves one
word to the compare register, `FINISH` ends the burst and leaves its notification pending (the
split from the delivery is this model's, log entry 11), and without an enabled step nothing moves. -/
def Obligations.DmaTurnTakesTheEnabledStep : Prop :=
  ∀ (s : State) (rest : List Event), s.input = .dma :: rest →
    (∀ len pos, s.xfer = .active len pos → pos < len → len ≤ bufLen s.params →
      step s = .next { s with
        input := rest, ccr := Memory.read s.txbuf pos, xfer := .active len (pos + 1) }) ∧
    (∀ len, s.xfer = .active len len →
      step s = .next { s with input := rest, xfer := .none, notifyPending := true }) ∧
    (s.xfer = .none ∨ s.xfer = .dead → step s = .next { s with input := rest })

/-- However host operations, records and choices interleave with it, a burst moves the words of the
buffer from its position on, in increasing index order, each at most once, as they stood, and none
at or beyond its length; and given its turns it moves all of them. No turn of the engine writes the
buffer (20_memory.md section 6). That the words are the snapshot's, whatever the host does, is
derived there, and rests on the spec's decisions D20 and D24: operations are atomic and the buffer
is coherent with the engine (log entry 13). -/
def Obligations.BurstSendsTheSnapshotInOrder : Prop :=
  (∀ (k : Nat) (s : State) (len pos : Nat), s.inited = true → s.ready = false →
    s.xfer = .active len pos → noCompletion k s →
    wordsSent k s = (List.range (wordsSent k s).length).map
        (fun j => Memory.read s.txbuf (pos + j)) ∧
      (wordsSent k s).length ≤ len - pos) ∧
  (∀ (s : State) (len pos : Nat) (rest : List Event),
    s.xfer = .active len pos → len ≤ bufLen s.params →
    s.input = List.replicate (len - pos) .dma ++ rest →
    wordsSent (len - pos) s = (List.range (len - pos)).map
      (fun j => Memory.read s.txbuf (pos + j))) ∧
  ∀ s t : State, s.input.head? = some .dma → step s = .next t → t.txbuf = s.txbuf

/-- A started burst that gets its turns completes (43_handshake_fsm.md section 2, decision D32: the
premise is that the start succeeded and that the engine's steps and the notification are taken):
after the remaining beats, `FINISH` and `TC_DONE` the block is `READY` and the run is over. That
`FINISH` and the delivery are two inputs is this model's split, log entry 11. -/
def Obligations.ServedBurstEndsReady : Prop :=
  ∀ (s : State) (len pos : Nat), s.inited = true → s.xfer = .active len pos → pos ≤ len →
    len ≤ bufLen s.params → s.input = List.replicate (len - pos + 1) .dma ++ [.notify 1#1] →
    ∃ t : State, Host.Core.run Sys2Proof.core (len - pos + 2) s = .next t ∧
      t.ready = true ∧ runOver t = true ∧ startDmaCount t = startDmaCount s

/-- `SHOW` racing with `TC_DONE` in `BUSY` has two outcomes (60_exceptions.md section 2, decision
D22): the notification first, and a burst is started; `SHOW` first, and it is dropped. -/
def Obligations.ShowAndCompletionInEitherOrder : Prop :=
  ∀ (s : State) (rest : List Event), s.WF → s.inited = true → s.ready = false →
    s.xfer = .none → s.notifyPending = true →
    (s.input = .notify 1#1 :: .command .main 0x0600000000000000#64 :: rest →
      ∃ t : State, Host.Core.run Sys2Proof.core 2 s = .next t ∧ t.ready = false ∧
        startDmaCount t = startDmaCount s + 1) ∧
    (s.input = .command .main 0x0600000000000000#64 :: .notify 1#1 :: rest →
      ∃ t : State, Host.Core.run Sys2Proof.core 2 s = .next t ∧ t.ready = true ∧
        t.xfer = .none ∧ startDmaCount t = startDmaCount s)

/-- With guard slots a burst ends on a zero word (70_reset_and_hazards.md section 3; the trailing
guard's position is decision D13): the last `BEAT` leaves `ccr = 0`. -/
def Obligations.GuardedBurstEndsIdle : Prop :=
  ∀ (s t : State) (pos : Nat), s.WF → TxOk s → s.inited = true → s.params.guard = true →
    s.input.head? = some .dma → s.xfer = .active (burstLen s) pos → pos + 1 = burstLen s →
    step s = .next t → t.ccr = 0

/-! ### Invariants and whole-machine rules -/

/-- Power-on reset: `inited = false`, nothing emitted, no burst (10_state.md section 10, decision D6),
and every invariant below. The spec leaves everything else there unspecified, so that the state is
well formed and the handshake consistent rests on this model's values: the parameters (log entry 1)
and the zeros and the pending notification (log entry 9); the words of `ccr` and the pixels are
free (log entries 7 and 8). -/
def Obligations.ResetMeetsTheInvariants : Prop :=
  State.reset.inited = false ∧ State.reset.tcTrace = [] ∧ State.reset.xfer = .none ∧
    State.reset.WF ∧ HandshakeOk State.reset ∧ TxOk State.reset

/-- Every step keeps the state well formed: the registers' ranges and widths, the number of pixel
registers, and the buffer's canonical form. -/
def Obligations.StepKeepsStatesWellFormed : Prop :=
  ∀ s t : State, s.WF → step s = .next t → t.WF

/-- Every step inside the Timer Channel's contract keeps the handshake's invariant
(43_handshake_fsm.md section 2): `READY` means no burst and no pending notification. -/
def Obligations.StepKeepsHandshakeConsistent : Prop :=
  ∀ s t : State, HandshakeOk s → InContract s → step s = .next t → HandshakeOk t

/-- The content law as an invariant of every step (42_show_encoder.md on `active_count`, guard slots
and content): data slots hold 0 or a threshold, all others 0. -/
def Obligations.StepKeepsBufferContent : Prop :=
  ∀ s t : State, s.WF → TxOk s → step s = .next t → TxOk t

/-- After a `SHOW` taken in `READY` every data slot holds one of the two thresholds and every other
slot 0 (42_show_encoder.md, the content law), valid configuration or not. -/
def Obligations.ShowFillsDataSlotsWithThresholds : Prop :=
  ∀ s : State, s.WF → TxOk s → s.inited = true → s.ready = true →
    ∃ t, exec .showFrame s = .next t ∧ ∀ a,
      if guardSlots s.params ≤ a ∧ a < guardSlots s.params + 24 * s.activeCount then
        Memory.read t.txbuf a = s.zeroThreshold ∨ Memory.read t.txbuf a = s.oneThreshold
      else Memory.read t.txbuf a = 0

/-- The block raises no fault (60_exceptions.md section 1): from a well-formed state with a
consistent handshake no step ends in one. The faults that this excludes are this model's own, for
locations that do not exist: log entry 19. -/
def Obligations.NoStepFaults : Prop :=
  ∀ s : State, s.WF → HandshakeOk s → ∀ f : Fault, step s ≠ .fault f

/-- What pixel values can influence: two machines that differ only in pixel values, buffer words,
compare value and responses take the same steps and differ only in these afterwards
(00_scope.md non-goals, 41_pixel_ops.md). -/
def Obligations.PixelValuesStayInTheFrame : Prop :=
  ∀ s s' t : State, SameButPixels s s' → step s = .next t →
    ∃ t', step s' = .next t' ∧ SameButPixels t t'

/-- A run that is over stays over, and in a quiescent state the DMA engine has no step
(70_reset_and_hazards.md section 5, decision D29). That a step with no input left answers the same
state, and that a turn with no enabled step changes nothing, is this model's choice, log entry 3. -/
def Obligations.QuiescentMeansNoExternalStep : Prop :=
  (∀ s : State, runOver s = true → step s = .next s) ∧
  ∀ (s : State) (rest : List Event), quiescent s = true → s.input = .dma :: rest →
    step s = .next { s with input := rest }
end

