-- ==== Sys2Proof/Laws/Calculator.lean ====
section
/-! SUPPORT. What the calculator answers, and when. -/

namespace Sys2Proof.Machine

theorem Timing.fits_iff (w : Nat) (t : Timing) :
    t.fits w = true ↔ t.period < 2 ^ w ∧ t.zero < 2 ^ w ∧ t.one < 2 ^ w := by
  simp [Timing.fits, and_assoc]

/-- The calculator answers `t` exactly when every divisor is at least 1, a symbol has at least one
tick, and `t` is what the formulas give and fits (40_init_timing.md R118). -/
theorem derive_eq_some (w : Nat) (c : CfgRecord) (t : Timing) :
    derive w c = some t ↔ 1 ≤ c.prescDiv ∧ divisorsOk c.timing = true ∧
      1 ≤ symbolTicks (tickHz c) c.timing ∧ t.fits w = true ∧
      t = timingOf (symbolTicks (tickHz c) c.timing) c.timing := by
  unfold derive
  simp only [Bool.and_eq_true, decide_eq_true_eq]
  constructor
  · intro h
    split at h
    · rename_i h0
      split at h
      · rename_i h1
        simp only [Option.some.injEq] at h
        subst h
        exact ⟨h0.1, h0.2, h1.1, h1.2, rfl⟩
      · cases h
    · cases h
  · rintro ⟨h1, h2, h3, h4, rfl⟩
    rw [if_pos ⟨h1, h2⟩, if_pos ⟨h3, h4⟩]

/-- The calculator has no result exactly when one of these fails (40_init_timing.md R118). -/
theorem derive_eq_none (w : Nat) (c : CfgRecord) :
    derive w c = none ↔ ¬ (1 ≤ c.prescDiv ∧ divisorsOk c.timing = true ∧
      1 ≤ symbolTicks (tickHz c) c.timing ∧
      (timingOf (symbolTicks (tickHz c) c.timing) c.timing).fits w = true) := by
  constructor
  · intro h hc
    have := (derive_eq_some w c _).2 ⟨hc.1, hc.2.1, hc.2.2.1, hc.2.2.2, rfl⟩
    rw [h] at this
    cases this
  · intro h
    cases hd : derive w c with
    | none => rfl
    | some t =>
      obtain ⟨h1, h2, h3, h4, rfl⟩ := (derive_eq_some w c t).1 hd
      exact absurd ⟨h1, h2, h3, h4⟩ h

/-- Whatever the record, `INIT` stores `WORD_W`-bit values (40_init_timing.md R118). -/
theorem timingFor_fits (w : Nat) (c : CfgRecord) (k : Nat) : (timingFor w c k).fits w = true := by
  unfold timingFor
  split
  · rename_i t ht
    exact ((derive_eq_some w c t).1 ht).2.2.2.1
  · exact (Timing.fits_iff _ _).2
      ⟨(Config.freeWord w c k).isLt, (Config.freeWord w c (k + 1)).isLt,
        (Config.freeWord w c (k + 2)).isLt⟩

end Sys2Proof.Machine
end

