-- ==== Sys2Proof/Laws/Decode.lean ====
section
/-! SUPPORT. The command word's fields: what each reads from a word made of fields, and a word is made
of its fields. The packed colour's bytes, both ways. -/

namespace Sys2Proof

@[simp] theorem cwOp_mkCmd (op : BitVec 8) (idx : BitVec 16) (c : Colour) :
    cwOp (mkCmd op idx c) = op := by
  unfold cwOp mkCmd
  ext i hi
  simp only [BitVec.getElem_extractLsb', BitVec.getLsbD_append]
  simp (disch := omega) [show ¬ 56 + i < 24 by omega, show ¬ 56 + i - 24 < 16 by omega,
    show ¬ 56 + i - 24 - 16 < 16 by omega, show 56 + i - 24 - 16 - 16 = i by omega]

@[simp] theorem cwRsv_mkCmd (op : BitVec 8) (idx : BitVec 16) (c : Colour) :
    cwRsv (mkCmd op idx c) = 0#16 := by
  unfold cwRsv mkCmd
  ext i hi
  simp only [BitVec.getElem_extractLsb', BitVec.getLsbD_append]
  simp (disch := omega) [show ¬ 40 + i < 24 by omega, show ¬ 40 + i - 24 < 16 by omega,
    show 40 + i - 24 - 16 < 16 by omega]

@[simp] theorem cwIdx_mkCmd (op : BitVec 8) (idx : BitVec 16) (c : Colour) :
    cwIdx (mkCmd op idx c) = idx := by
  unfold cwIdx mkCmd
  ext i hi
  simp only [BitVec.getElem_extractLsb', BitVec.getLsbD_append]
  simp (disch := omega) [show ¬ 24 + i < 24 by omega, show 24 + i - 24 = i by omega, hi]

@[simp] theorem cwColour_mkCmd (op : BitVec 8) (idx : BitVec 16) (c : Colour) :
    cwColour (mkCmd op idx c) = c := by
  unfold cwColour mkCmd
  ext i hi
  simp only [BitVec.getElem_extractLsb', BitVec.getLsbD_append]
  simp [hi]

/-- The three colour bytes of a word are those of its packed colour (30_encoding.md R91). -/
theorem cw_bytes (cw : CmdWord) :
    cwR cw = (cwColour cw).extractLsb' 16 8 ∧ cwG cw = (cwColour cw).extractLsb' 8 8 ∧
      cwB cw = (cwColour cw).extractLsb' 0 8 := by
  unfold cwR cwG cwB cwColour
  refine ⟨?_, ?_, ?_⟩ <;> ext i hi <;> simp (disch := omega)

/-- A word whose reserved field is 0 is made of its fields. -/
theorem mkCmd_fields (cw : CmdWord) (h : cwRsv cw = 0#16) :
    mkCmd (cwOp cw) (cwIdx cw) (cwColour cw) = cw := by
  have hr : ∀ j, j < 16 → cw.getLsbD (40 + j) = false := by
    intro j hj
    have : (cwRsv cw).getLsbD j = (0#16).getLsbD j := by rw [h]
    simpa [cwRsv, hj] using this
  unfold mkCmd cwOp cwIdx cwColour
  ext i hi
  rw [← BitVec.getLsbD_eq_getElem, ← BitVec.getLsbD_eq_getElem]
  simp only [BitVec.getLsbD_append, BitVec.getLsbD_extractLsb']
  by_cases h1 : i < 24
  · simp [h1]
  · by_cases h2 : i - 24 < 16
    · simp [h1, h2, show 24 + (i - 24) = i by omega]
    · by_cases h3 : i - 24 - 16 < 16
      · have := hr (i - 24 - 16) h3
        rw [show 40 + (i - 24 - 16) = i by omega] at this
        simp [h1, h2, h3, this]
      · simp [h1, h2, h3, show 56 + (i - 24 - 16 - 16) = i by omega,
          show i - 24 - 16 - 16 < 8 by omega]

/-- The bytes of a concatenation of three bytes. -/
theorem colour_bytes (r g b : Byte) :
    (r ++ g ++ b : Colour).extractLsb' 16 8 = r ∧ (r ++ g ++ b : Colour).extractLsb' 8 8 = g ∧
      (r ++ g ++ b : Colour).extractLsb' 0 8 = b := by
  refine ⟨?_, ?_, ?_⟩ <;> ext i hi <;>
    simp only [BitVec.getElem_extractLsb', BitVec.getLsbD_append]
  · simp [show ¬ 16 + i < 8 by omega, show ¬ 16 + i - 8 < 8 by omega,
      show 16 + i - 8 - 8 = i by omega, ← BitVec.getLsbD_eq_getElem]
  · simp [show ¬ 8 + i < 8 by omega, show 8 + i - 8 = i by omega, hi]
  · simp [hi]

/-- A packed colour is the concatenation of its bytes. -/
theorem colour_eq_bytes (c : Colour) :
    (c.extractLsb' 16 8 ++ c.extractLsb' 8 8 ++ c.extractLsb' 0 8 : Colour) = c := by
  ext i hi
  rw [← BitVec.getLsbD_eq_getElem, ← BitVec.getLsbD_eq_getElem]
  simp only [BitVec.getLsbD_append, BitVec.getLsbD_extractLsb']
  by_cases h1 : i < 8
  · simp [h1]
  · by_cases h2 : i - 8 < 8
    · simp [h1, h2, show 8 + (i - 8) = i by omega]
    · simp [h1, h2, show 16 + (i - 8 - 8) = i by omega, show i - 8 - 8 < 8 by omega]

/-- What `accept` can accept. -/
theorem accept_ok (f : Format) (cw : CmdWord) (i j : Instr) :
    accept f cw i = .ok j ↔ cwRsv cw = 0#16 ∧ unusedZero f cw = true ∧ i = j := by
  unfold accept
  by_cases h : cwRsv cw = 0#16
  · cases hu : unusedZero f cw <;> simp [h]
  · simp [h]

end Sys2Proof
end

