-- ==== Sys2Proof/Laws/Memory.lean ====
section
/-! SUPPORT. The Transmit Buffer's laws: read after write, the canonical form is kept, and what a run
of writes leaves. -/

namespace Sys2Proof.Machine

theorem Memory.wf_cons (k : Nat) (w : Nat) (m : Memory) :
    Memory.wf ((k, w) :: m) = true ↔
      w ≠ unlistedWord ∧ (∀ c ∈ m, k < c.1) ∧ Memory.wf m = true := by
  simp [Memory.wf, and_assoc]

theorem Memory.read_below (m : Memory) (a : Nat) (h : ∀ c ∈ m, a < c.1) :
    Memory.read m a = unlistedWord := by
  induction m with
  | nil => rfl
  | cons c m ih =>
    obtain ⟨k, w⟩ := c
    have hk : a < k := h (k, w) List.mem_cons_self
    have : k ≠ a := by omega
    simp [Memory.read, this, ih fun c hc => h c (List.mem_cons_of_mem _ hc)]

/-- A write leaves every other slot alone. -/
theorem Memory.read_write_other (m : Memory) (a b : Nat) (v : Nat) (h : b ≠ a) :
    Memory.read (Memory.write m a v) b = Memory.read m b := by
  induction m with
  | nil =>
    by_cases hv : v = unlistedWord
    · simp [Memory.write, hv]
    · simp [Memory.write, hv, Memory.read, Ne.symm h]
  | cons c m ih =>
    obtain ⟨k, w⟩ := c
    have hba : ¬ a = b := fun e => h e.symm
    simp only [Memory.write]
    split
    · split <;> simp [Memory.read, hba]
    · split
      · rename_i hak
        subst hak
        split <;> simp [Memory.read, hba]
      · simp [Memory.read, ih]

/-- A read after a write to the same slot gives the value written. -/
theorem Memory.read_write_same (m : Memory) (a : Nat) (v : Nat) (hm : Memory.wf m = true) :
    Memory.read (Memory.write m a v) a = v := by
  induction m with
  | nil =>
    by_cases hv : v = unlistedWord
    · simp [Memory.write, hv, Memory.read]
    · simp [Memory.write, hv, Memory.read]
  | cons c m ih =>
    obtain ⟨k, w⟩ := c
    obtain ⟨-, hlt, hwf⟩ := (Memory.wf_cons k w m).1 hm
    simp only [Memory.write]
    split
    · rename_i hak
      split
      · rename_i hv
        rw [hv]
        refine Memory.read_below _ _ fun c hc => ?_
        rcases List.mem_cons.1 hc with rfl | hc
        · exact hak
        · exact lt_trans hak (hlt c hc)
      · simp [Memory.read]
    · split
      · rename_i hak
        subst hak
        split
        · rename_i hv
          rw [hv]
          exact Memory.read_below _ _ hlt
        · simp [Memory.read]
      · rename_i hak
        have : ¬ k = a := fun e => hak e.symm
        simp [Memory.read, this, ih hwf]

theorem Memory.mem_write (m : Memory) (a : Nat) (v : Nat) (c : Nat × Nat)
    (hc : c ∈ Memory.write m a v) : c ∈ m ∨ c = (a, v) := by
  induction m with
  | nil =>
    simp only [Memory.write] at hc
    split at hc <;> simp_all
  | cons d m ih =>
    obtain ⟨k, w⟩ := d
    simp only [Memory.write] at hc
    split at hc
    · split at hc
      · exact .inl hc
      · rcases List.mem_cons.1 hc with h | h
        · exact .inr h
        · exact .inl h
    · split at hc
      · split at hc
        · exact .inl (List.mem_cons_of_mem _ hc)
        · rcases List.mem_cons.1 hc with h | h
          · exact .inr h
          · exact .inl (List.mem_cons_of_mem _ h)
      · rcases List.mem_cons.1 hc with h | h
        · exact .inl (h ▸ List.mem_cons_self)
        · exact (ih h).imp (List.mem_cons_of_mem _) id

/-- A write keeps the canonical form. -/
theorem Memory.write_wf (m : Memory) (a : Nat) (v : Nat) (hm : Memory.wf m = true) :
    Memory.wf (Memory.write m a v) = true := by
  induction m with
  | nil =>
    by_cases hv : v = unlistedWord
    · simp [Memory.write, hv, Memory.wf]
    · simp [Memory.write, hv, Memory.wf]
  | cons c m ih =>
    obtain ⟨k, w⟩ := c
    obtain ⟨hw, hlt, hwf⟩ := (Memory.wf_cons k w m).1 hm
    simp only [Memory.write]
    split
    · rename_i hak
      split
      · exact hm
      · rename_i hv
        refine (Memory.wf_cons _ _ _).2 ⟨hv, fun c hc => ?_, hm⟩
        rcases List.mem_cons.1 hc with rfl | hc
        · exact hak
        · exact lt_trans hak (hlt c hc)
    · split
      · rename_i hak
        subst hak
        split
        · exact hwf
        · rename_i hv
          exact (Memory.wf_cons _ _ _).2 ⟨hv, hlt, hwf⟩
      · refine (Memory.wf_cons _ _ _).2 ⟨hw, fun c hc => ?_, ih hwf⟩
        rcases Memory.mem_write m a v c hc with h | h
        · exact hlt c h
        · subst h
          show k < a
          omega

theorem Memory.fits_iff (p : Params) (m : Memory) :
    Memory.fits p m = true ↔ ∀ c ∈ m, c.1 < bufLen p ∧ c.2 < 2 ^ p.wordW := by
  simp [Memory.fits]

theorem Memory.write_fits (p : Params) (m : Memory) (a : Nat) (v : Nat)
    (hm : Memory.fits p m = true) (ha : a < bufLen p) (hv : v < 2 ^ p.wordW) :
    Memory.fits p (Memory.write m a v) = true := by
  rw [Memory.fits_iff] at hm ⊢
  intro c hc
  rcases Memory.mem_write m a v c hc with h | h
  · exact hm c h
  · subst h
    exact ⟨ha, hv⟩

/-- A word of a fitting buffer fits `WORD_W` bits. -/
theorem Memory.read_lt (p : Params) (m : Memory) (a : Nat) (hm : Memory.fits p m = true) :
    Memory.read m a < 2 ^ p.wordW := by
  rw [Memory.fits_iff] at hm
  induction m with
  | nil => exact Nat.two_pow_pos _
  | cons c m ih =>
    obtain ⟨k, w⟩ := c
    simp only [Memory.read]
    split
    · exact (hm (k, w) List.mem_cons_self).2
    · exact ih fun c hc => hm c (List.mem_cons_of_mem _ hc)

/-- Slots that do not exist read as unlisted. -/
theorem Memory.read_beyond (p : Params) (m : Memory) (a : Nat) (hm : Memory.fits p m = true)
    (ha : bufLen p ≤ a) : Memory.read m a = unlistedWord := by
  rw [Memory.fits_iff] at hm
  induction m with
  | nil => rfl
  | cons c m ih =>
    obtain ⟨k, w⟩ := c
    have hk : k < bufLen p := (hm (k, w) List.mem_cons_self).1
    have : ¬ k = a := by omega
    simp [Memory.read, this, ih fun c hc => hm c (List.mem_cons_of_mem _ hc)]

/-- Canonical memories that read the same are the same data. -/
theorem Memory.ext_of_wf (m n : Memory) (hm : Memory.wf m = true) (hn : Memory.wf n = true)
    (h : ∀ a, Memory.read m a = Memory.read n a) : m = n := by
  induction m generalizing n with
  | nil =>
    cases n with
    | nil => rfl
    | cons d n =>
      obtain ⟨l, w⟩ := d
      exact absurd (by simpa [Memory.read] using (h l).symm) ((Memory.wf_cons _ _ _).1 hn).1
  | cons c m ih =>
    obtain ⟨k, v⟩ := c
    obtain ⟨hv, hlt, hwf⟩ := (Memory.wf_cons k v m).1 hm
    cases n with
    | nil => exact absurd (by simpa [Memory.read] using h k) hv
    | cons d n =>
      obtain ⟨l, w⟩ := d
      obtain ⟨hw, hlt', hwf'⟩ := (Memory.wf_cons l w n).1 hn
      have hkl : k = l := by
        rcases lt_trichotomy k l with hlk | rfl | hlk
        · have hz : Memory.read ((l, w) :: n) k = unlistedWord := by
            refine Memory.read_below _ _ fun c hc => ?_
            rcases List.mem_cons.1 hc with rfl | hc
            · exact hlk
            · exact lt_trans hlk (hlt' c hc)
          exact absurd ((by simpa [Memory.read] using h k : v = _).trans hz) hv
        · rfl
        · have hz : Memory.read ((k, v) :: m) l = unlistedWord := by
            refine Memory.read_below _ _ fun c hc => ?_
            rcases List.mem_cons.1 hc with rfl | hc
            · exact hlk
            · exact lt_trans hlk (hlt c hc)
          exact absurd ((by simpa [Memory.read] using (h l).symm : w = _).trans hz) hw
      subst hkl
      have hvw : v = w := by simpa [Memory.read] using h k
      subst hvw
      congr 1
      refine ih n hwf hwf' fun a => ?_
      by_cases hka : k = a
      · subst hka
        rw [Memory.read_below _ _ hlt, Memory.read_below _ _ hlt']
      · simpa [Memory.read, hka] using h a

/-! ### `INIT`'s zeroing -/

theorem Memory.read_zeroBelow (n : Nat) (m : Memory) (a : Nat) :
    Memory.read (Memory.zeroBelow n m) a = if a < n then unlistedWord else Memory.read m a := by
  induction m with
  | nil => simp [Memory.zeroBelow, Memory.read]
  | cons c m ih =>
    obtain ⟨k, w⟩ := c
    simp only [Memory.zeroBelow] at ih
    by_cases hk : n ≤ k
    · simp only [Memory.zeroBelow, List.filter, hk, decide_true, Memory.read, ih]
      by_cases hka : k = a
      · subst hka
        simp [Nat.not_lt.2 hk]
      · simp [hka]
    · simp only [Memory.zeroBelow, List.filter, hk, decide_false, Memory.read, ih]
      by_cases hka : k = a
      · subst hka
        simp [Nat.lt_of_not_le hk]
      · simp [hka]

theorem Memory.zeroBelow_wf (n : Nat) (m : Memory) (hm : Memory.wf m = true) :
    Memory.wf (Memory.zeroBelow n m) = true := by
  induction m with
  | nil => rfl
  | cons c m ih =>
    obtain ⟨k, w⟩ := c
    obtain ⟨hw, hlt, hwf⟩ := (Memory.wf_cons k w m).1 hm
    by_cases hk : n ≤ k
    · simp only [Memory.zeroBelow, List.filter, hk, decide_true]
      exact (Memory.wf_cons _ _ _).2
        ⟨hw, fun c hc => hlt c (List.mem_of_mem_filter hc), ih hwf⟩
    · simp only [Memory.zeroBelow, List.filter, hk, decide_false]
      exact ih hwf

theorem Memory.zeroBelow_fits (p : Params) (n : Nat) (m : Memory)
    (hm : Memory.fits p m = true) : Memory.fits p (Memory.zeroBelow n m) = true := by
  rw [Memory.fits_iff] at hm ⊢
  exact fun c hc => hm c (List.mem_of_mem_filter hc)

/-- `INIT`'s zeroing is the `n` single writes of 0 that 40_init_timing.md R125 names. -/
theorem Memory.zeroBelow_eq_writes (n : Nat) (m : Memory) (hm : Memory.wf m = true) :
    Memory.zeroBelow n m = (List.range n).foldl (fun m a => Memory.write m a 0) m := by
  have hw : ∀ k, Memory.wf ((List.range k).foldl (fun m a => Memory.write m a 0) m) = true := by
    intro k
    induction k with
    | zero => simpa using hm
    | succ k ih => simpa [List.range_succ] using Memory.write_wf _ k 0 ih
  refine Memory.ext_of_wf _ _ (Memory.zeroBelow_wf n m hm) (hw n) fun a => ?_
  rw [Memory.read_zeroBelow]
  clear hm
  induction n with
  | zero => simp
  | succ n ih =>
    simp only [List.range_succ, List.foldl_append, List.foldl_cons, List.foldl_nil]
    by_cases han : a = n
    · subst han
      rw [Memory.read_write_same _ _ _ (hw a)]
      simp [unlistedWord]
    · rw [Memory.read_write_other _ _ _ _ han, ← ih]
      have : a < n + 1 ↔ a < n := by omega
      simp [this]

/-! ### `MemWrite` along a cursor -/

/-- Everything a run of `MemWrite`s can do: it succeeds if and only if every slot exists, and then
the words stand at the cursor's slots and every other slot is as before. -/
theorem txWriteFrom_ok (p : Params) (vs : List Nat) (m : Memory) (wp : Nat)
    (hfit : wp + vs.length ≤ bufLen p) (hm : Memory.wf m = true) :
    ∃ m', txWriteFrom p m wp vs = .ok m' ∧ Memory.wf m' = true ∧
      (∀ j (h : j < vs.length), Memory.read m' (wp + j) = vs[j]) ∧
      (∀ a, (a < wp ∨ wp + vs.length ≤ a) → Memory.read m' a = Memory.read m a) := by
  induction vs generalizing m wp with
  | nil => exact ⟨m, rfl, hm, fun j h => absurd h (Nat.not_lt_zero j), fun _ _ => rfl⟩
  | cons v vs ih =>
    simp only [List.length_cons] at hfit
    have hlt : wp < bufLen p := by omega
    obtain ⟨m', heq, hwf, hin, hout⟩ :=
      ih (Memory.write m wp v) (wp + 1) (by omega) (Memory.write_wf m wp v hm)
    refine ⟨m', by simp [txWriteFrom, txWrite, hlt, heq], hwf, fun j hj => ?_, fun a ha => ?_⟩
    · cases j with
      | zero =>
        rw [Nat.add_zero, hout wp (.inl (by omega)), Memory.read_write_same m wp v hm]
        rfl
      | succ j =>
        have := hin j (by simpa using hj)
        rw [show wp + (j + 1) = wp + 1 + j by omega, this]
        rfl
    · simp only [List.length_cons] at ha
      rw [hout a (by omega), Memory.read_write_other m wp a v (by omega)]

theorem txWriteFrom_fits (p : Params) (vs : List Nat) (m m' : Memory) (wp : Nat)
    (h : txWriteFrom p m wp vs = .ok m') (hm : Memory.fits p m = true)
    (hv : ∀ v ∈ vs, v < 2 ^ p.wordW) : Memory.fits p m' = true := by
  induction vs generalizing m wp with
  | nil =>
    simp only [txWriteFrom, Except.ok.injEq] at h
    exact h ▸ hm
  | cons v vs ih =>
    simp only [txWriteFrom, txWrite] at h
    split at h
    · rename_i m1 h1
      split at h1
      · rename_i hlt
        simp only [Except.ok.injEq] at h1
        subst h1
        exact ih _ _ h
          (Memory.write_fits p m wp v hm hlt (hv v List.mem_cons_self))
          fun u hu => hv u (List.mem_cons_of_mem _ hu)
      · cases h1
    · cases h

/-- The only stop of a run of `MemWrite`s, and when it comes. -/
theorem txWriteFrom_error (p : Params) (vs : List Nat) (m : Memory) (wp : Nat)
    (hne : vs ≠ []) (h : bufLen p < wp + vs.length) :
    txWriteFrom p m wp vs = .error .txOutOfRange := by
  induction vs generalizing m wp with
  | nil => exact absurd rfl hne
  | cons v vs ih =>
    simp only [List.length_cons] at h
    by_cases hlt : wp < bufLen p
    · have hvs : vs ≠ [] := by
        rintro rfl
        simp only [List.length_nil] at h
        omega
      simp [txWriteFrom, txWrite, hlt, ih (Memory.write m wp v) (wp + 1) hvs (by omega)]
    · simp [txWriteFrom, txWrite, hlt]

/-- A run of writes leaves every slot outside it alone, whatever the memory was. -/
theorem txWriteFrom_other (p : Params) (vs : List Nat) (m m' : Memory) (wp a : Nat)
    (h : txWriteFrom p m wp vs = .ok m') (ha : a < wp ∨ wp + vs.length ≤ a) :
    Memory.read m' a = Memory.read m a := by
  induction vs generalizing m wp with
  | nil =>
    simp only [txWriteFrom, Except.ok.injEq] at h
    rw [h]
  | cons v vs ih =>
    simp only [txWriteFrom, txWrite] at h
    simp only [List.length_cons] at ha
    split at h
    · rename_i m1 h1
      split at h1
      · cases h1
        rw [ih _ _ h (by omega), Memory.read_write_other _ _ _ _ (by omega)]
      · cases h1
    · cases h

end Sys2Proof.Machine
end

