-- ==== Sys2Proof/Laws/Frame.lean ====
section
/-! SUPPORT. The LED Frame's laws, the pulse encoder's words, and what `encode_frame` leaves. -/

namespace Sys2Proof.Machine

/-! ### Pixel registers -/

theorem pxRead_of_lt (x : List Pixel) (i : Nat) (h : i < x.length) : pxRead x i = .ok x[i] := by
  simp [pxRead, h]

theorem pxRead_eq_ok (x : List Pixel) (i : Nat) (px : Pixel) :
    pxRead x i = .ok px ↔ x[i]? = some px := by
  unfold pxRead
  cases x[i]? <;> simp

theorem pxWrite_of_lt (x : List Pixel) (i : Nat) (px : Pixel) (h : i < x.length) :
    pxWrite x i px = .ok (x.set i px) := by
  simp [pxWrite, h]

theorem pxRead_set_same (x : List Pixel) (i : Nat) (px : Pixel) (h : i < x.length) :
    pxRead (x.set i px) i = .ok px := by
  simp [pxRead, h]

theorem pxRead_set_other (x : List Pixel) (i j : Nat) (px : Pixel) (h : j ≠ i) :
    pxRead (x.set i px) j = pxRead x j := by
  simp [pxRead, List.getElem?_set_ne h.symm]

/-- Everything a fill can do while every register exists. -/
theorem pxWriteAll_ok (x : List Pixel) (px : Pixel) (n : Nat) (h : n ≤ x.length) :
    ∃ x', pxWriteAll x px n = .ok x' ∧ x'.length = x.length ∧
      ∀ i, pxRead x' i = if i < n then .ok px else pxRead x i := by
  induction n with
  | zero => exact ⟨x, rfl, rfl, fun i => by simp⟩
  | succ n ih =>
    obtain ⟨x', heq, hlen, hread⟩ := ih (by omega)
    have hn : n < x'.length := by omega
    refine ⟨x'.set n px, by simp [pxWriteAll, heq, pxWrite_of_lt _ _ _ hn], by simp [hlen],
      fun i => ?_⟩
    by_cases hin : i = n
    · subst hin
      rw [pxRead_set_same _ _ _ hn]
      simp
    · rw [pxRead_set_other _ _ _ _ hin, hread]
      have : i < n + 1 ↔ i < n := by omega
      simp [this]

theorem pxWriteAll_length (x x' : List Pixel) (px : Pixel) (n : Nat)
    (h : pxWriteAll x px n = .ok x') : x'.length = x.length := by
  induction n generalizing x' with
  | zero =>
    simp only [pxWriteAll, Except.ok.injEq] at h
    exact h ▸ rfl
  | succ n ih =>
    simp only [pxWriteAll] at h
    split at h
    · rename_i y hy
      unfold pxWrite at h
      split at h
      · simp only [Except.ok.injEq] at h
        rw [← h, List.length_set, ih y hy]
      · cases h
    · cases h

/-- Reading the first `n` registers gives them in order. -/
theorem pxReadAll_ok (x : List Pixel) (n : Nat) (h : n ≤ x.length) :
    pxReadAll x n = .ok (x.take n) := by
  induction n with
  | zero => simp [pxReadAll]
  | succ n ih =>
    have hn : n < x.length := by omega
    rw [List.take_succ_eq_append_getElem hn]
    simp only [pxReadAll, ih (by omega), pxRead_of_lt x n hn]

theorem pxReadAll_length (x : List Pixel) (n : Nat) (ps : List Pixel)
    (h : pxReadAll x n = .ok ps) : ps.length = n := by
  induction n generalizing ps with
  | zero =>
    simp only [pxReadAll, Except.ok.injEq] at h
    simp [← h]
  | succ n ih =>
    simp only [pxReadAll] at h
    split at h
    · rename_i q hq
      split at h
      · simp only [Except.ok.injEq] at h
        simp [← h, ih q hq]
      · cases h
    · cases h

/-! ### The encoder's words -/

@[simp] theorem enc8_length (zw ow : Nat) (v : Byte) : (enc8 zw ow v).length = 8 := rfl

@[simp] theorem enc24_length (zw ow : Nat) (px : Pixel) : (enc24 zw ow px).length = 24 := rfl

@[simp] theorem frameWords_length (zw ow : Nat) (ps : List Pixel) :
    (frameWords zw ow ps).length = 24 * ps.length := by
  induction ps with
  | nil => rfl
  | cons px ps ih =>
    simp only [frameWords, List.flatMap_cons, List.length_append, enc24_length, List.length_cons]
    simp only [frameWords] at ih
    omega

/-- Word `24 * i + j` of the frame is word `j` of pixel `i`. -/
theorem frameWords_get (zw ow : Nat) (ps : List Pixel) (i j : Nat) (hi : i < ps.length)
    (hj : j < 24) : (frameWords zw ow ps)[24 * i + j]? = (enc24 zw ow ps[i])[j]? := by
  induction ps generalizing i with
  | nil => exact absurd hi (Nat.not_lt_zero i)
  | cons px ps ih =>
    simp only [frameWords, List.flatMap_cons]
    cases i with
    | zero =>
      rw [List.getElem?_append_left (by rw [enc24_length]; omega)]
      simp
    | succ i =>
      rw [List.getElem?_append_right (by rw [enc24_length]; omega), enc24_length]
      have := ih i (by simpa using hi)
      simp only [frameWords] at this
      rw [show 24 * (i + 1) + j - 24 = 24 * i + j by omega, this]
      simp

/-- Word `8 * f + (7 - b)` of a pixel is the pulse of bit `b` of field `f`. -/
theorem enc24_get (zw ow : Nat) (px : Pixel) (f : Fin 3) (b : Fin 8) :
    (enc24 zw ow px)[8 * f.val + (7 - b.val)]? =
      some (pulse zw ow ((fieldByte f px).getLsbD b.val)) := by
  fin_cases f <;> fin_cases b <;> rfl

theorem pulse_cases (zw ow : Nat) (bit : Bool) : pulse zw ow bit = zw ∨ pulse zw ow bit = ow := by
  cases bit <;> simp [pulse]

theorem mem_enc24 (zw ow : Nat) (px : Pixel) (v : Nat) (h : v ∈ enc24 zw ow px) :
    v = zw ∨ v = ow := by
  simp only [enc24, enc8, List.mem_append, List.mem_map] at h
  rcases h with (⟨k, -, rfl⟩ | ⟨k, -, rfl⟩) | ⟨k, -, rfl⟩ <;> exact pulse_cases _ _ _

theorem mem_frameWords (zw ow : Nat) (ps : List Pixel) (v : Nat)
    (h : v ∈ frameWords zw ow ps) : v = zw ∨ v = ow := by
  simp only [frameWords, List.mem_flatMap] at h
  obtain ⟨px, -, h⟩ := h
  exact mem_enc24 zw ow px v h

/-! ### `encode_frame` -/

/-- The data slots lie inside the buffer. -/
theorem data_slots_le (s : State) (h : s.WF) :
    guardSlots s.params + 24 * s.activeCount ≤ bufLen s.params := by
  have := h.active_le
  unfold bufLen
  omega

/-- The words of a frame of a well-formed state. -/
theorem pxReadAll_of_wf (s : State) (h : s.WF) :
    pxReadAll s.x s.activeCount = .ok (s.x.take s.activeCount) :=
  pxReadAll_ok _ _ (h.x_length ▸ h.active_le)

theorem take_active_length (s : State) (h : s.WF) :
    (s.x.take s.activeCount).length = s.activeCount := by
  have := h.active_le
  have := h.x_length
  simp
  omega

/-- Everything `encode_frame` does in a well-formed state: it succeeds, the frame's words stand at
the data slots, every other slot is as before, and the buffer stays canonical and fitting. -/
theorem encodeFrame_of_wf (s : State) (h : s.WF) :
    ∃ m, encodeFrame s = .ok m ∧ Memory.wf m = true ∧ Memory.fits s.params m = true ∧
      (∀ j, j < 24 * s.activeCount →
        (frameWords s.zeroThreshold s.oneThreshold (s.x.take s.activeCount))[j]? =
          some (Memory.read m (guardSlots s.params + j))) ∧
      (∀ a, isDataSlot s a = false → Memory.read m a = Memory.read s.txbuf a) := by
  have hlen := take_active_length s h
  have hfl : (frameWords s.zeroThreshold s.oneThreshold (s.x.take s.activeCount)).length
      = 24 * s.activeCount := by rw [frameWords_length, hlen]
  obtain ⟨m, heq, hwf, hin, hout⟩ := txWriteFrom_ok s.params
    (frameWords s.zeroThreshold s.oneThreshold (s.x.take s.activeCount)) s.txbuf
    (guardSlots s.params) (by rw [hfl]; exact data_slots_le s h) h.txbuf_wf
  refine ⟨m, ?_, hwf, ?_, fun j hj => ?_, fun a ha => hout a ?_⟩
  · simp only [encodeFrame, pxReadAll_of_wf s h]
    exact heq
  · refine txWriteFrom_fits _ _ _ _ _ heq h.txbuf_fits fun v hv => ?_
    rcases mem_frameWords _ _ _ _ hv with rfl | rfl
    · exact h.zero_lt
    · exact h.one_lt
  · have hj' : j < (frameWords s.zeroThreshold s.oneThreshold
        (s.x.take s.activeCount)).length := by rw [hfl]; exact hj
    rw [hin j hj', List.getElem?_eq_getElem hj']
  · rw [hfl]
    simp only [isDataSlot, Bool.and_eq_false_iff, decide_eq_false_iff_not, not_le, not_lt] at ha
    exact ha

/-- A data slot holds one of the two thresholds. -/
theorem encodeFrame_data_words (s : State) (h : s.WF) (m : Memory) (heq : encodeFrame s = .ok m)
    (a : Nat) (ha : isDataSlot s a = true) :
    Memory.read m a = s.zeroThreshold ∨ Memory.read m a = s.oneThreshold := by
  obtain ⟨m', heq', -, -, hin, -⟩ := encodeFrame_of_wf s h
  have : m = m' := by simpa [heq] using heq'
  subst this
  simp only [isDataSlot, Bool.and_eq_true, decide_eq_true_eq] at ha
  have hget := hin (a - guardSlots s.params) (by omega)
  rw [show guardSlots s.params + (a - guardSlots s.params) = a by omega] at hget
  exact mem_frameWords _ _ _ _ (List.mem_of_getElem? hget)

end Sys2Proof.Machine
end

