-- ==== Sys2Proof/Laws/PerInstr.lean ====
section
/-! SUPPORT. The per-instruction family `ReservedZero`: one lemma per operation. -/

namespace Sys2Proof.Laws.ReservedZero

/-- The operation's command word, where it has one, has its reserved field 0, as every format asks
(30_encoding.md R90). -/
def Statement (i : Instr) : Prop := ∀ cw : CmdWord, encode i = .cmd cw → cwRsv cw = 0#16

theorem of_mkCmd {i : Instr} {op : BitVec 8} {idx : BitVec 16} {c : Colour}
    (h : encode i = .cmd (mkCmd op idx c)) : Statement i := by
  intro cw hcw
  rw [h, PortWord.cmd.injEq] at hcw
  rw [← hcw, cwRsv_mkCmd]

theorem init : Statement .init := of_mkCmd rfl
theorem setRgb (idx : Nat) (r g b : Byte) : Statement (.setRgb idx r g b) := of_mkCmd rfl
theorem setPacked (idx : Nat) (c : Colour) : Statement (.setPacked idx c) := of_mkCmd rfl
theorem fill (c : Colour) : Statement (.fill c) := of_mkCmd rfl
theorem clear : Statement .clear := of_mkCmd rfl
theorem showFrame : Statement .showFrame := of_mkCmd rfl
theorem get (idx : Nat) : Statement (.get idx) := of_mkCmd rfl
theorem status : Statement .status := of_mkCmd rfl
theorem tcDone : Statement .tcDone := by
  intro cw hcw
  cases hcw

end Sys2Proof.Laws.ReservedZero
end

