-- ==== Sys2Proof/Laws/State.lean ====
section
/-! SUPPORT. What each state operation leaves in each field, so that no later proof unfolds a record
update. -/

namespace Sys2Proof.Machine

variable (s : State)

/-! ### `emit` -/

@[simp] theorem emit_params (c : TcCall) : (emit c s).params = s.params := rfl
@[simp] theorem emit_x (c : TcCall) : (emit c s).x = s.x := rfl
@[simp] theorem emit_activeCount (c : TcCall) : (emit c s).activeCount = s.activeCount := rfl
@[simp] theorem emit_period (c : TcCall) : (emit c s).period = s.period := rfl
@[simp] theorem emit_zeroThreshold (c : TcCall) : (emit c s).zeroThreshold = s.zeroThreshold := rfl
@[simp] theorem emit_oneThreshold (c : TcCall) : (emit c s).oneThreshold = s.oneThreshold := rfl
@[simp] theorem emit_txbuf (c : TcCall) : (emit c s).txbuf = s.txbuf := rfl
@[simp] theorem emit_ready (c : TcCall) : (emit c s).ready = s.ready := rfl
@[simp] theorem emit_inited (c : TcCall) : (emit c s).inited = s.inited := rfl
@[simp] theorem emit_tcCfg (c : TcCall) : (emit c s).tcCfg = s.tcCfg := rfl
@[simp] theorem emit_ccr (c : TcCall) : (emit c s).ccr = s.ccr := rfl
@[simp] theorem emit_xfer (c : TcCall) : (emit c s).xfer = s.xfer := rfl
@[simp] theorem emit_notifyPending (c : TcCall) : (emit c s).notifyPending = s.notifyPending := rfl
@[simp] theorem emit_tcTrace (c : TcCall) :
    (emit c s).tcTrace = s.tcTrace ++ [{ chan := s.tcCfg, call := c }] := rfl
@[simp] theorem emit_rspTrace (c : TcCall) : (emit c s).rspTrace = s.rspTrace := rfl
@[simp] theorem emit_cfgPort (c : TcCall) : (emit c s).cfgPort = s.cfgPort := rfl
@[simp] theorem emit_tcStart (c : TcCall) : (emit c s).tcStart = s.tcStart := rfl
@[simp] theorem emit_input (c : TcCall) : (emit c s).input = s.input := rfl
@[simp] theorem emit_draws (c : TcCall) : (emit c s).draws = s.draws := rfl

/-! ### `emitSetPwm` and `emitStartDma`: what they change; the rest is as `emit` leaves it -/

@[simp] theorem emitSetPwm_params (v : Nat) : (emitSetPwm v s).params = s.params := rfl
@[simp] theorem emitSetPwm_x (v : Nat) : (emitSetPwm v s).x = s.x := rfl
@[simp] theorem emitSetPwm_activeCount (v : Nat) : (emitSetPwm v s).activeCount = s.activeCount := rfl
@[simp] theorem emitSetPwm_period (v : Nat) : (emitSetPwm v s).period = s.period := rfl
@[simp] theorem emitSetPwm_zeroThreshold (v : Nat) : (emitSetPwm v s).zeroThreshold = s.zeroThreshold := rfl
@[simp] theorem emitSetPwm_oneThreshold (v : Nat) : (emitSetPwm v s).oneThreshold = s.oneThreshold := rfl
@[simp] theorem emitSetPwm_txbuf (v : Nat) : (emitSetPwm v s).txbuf = s.txbuf := rfl
@[simp] theorem emitSetPwm_ready (v : Nat) : (emitSetPwm v s).ready = s.ready := rfl
@[simp] theorem emitSetPwm_inited (v : Nat) : (emitSetPwm v s).inited = s.inited := rfl
@[simp] theorem emitSetPwm_tcCfg (v : Nat) : (emitSetPwm v s).tcCfg = s.tcCfg := rfl
@[simp] theorem emitSetPwm_ccr (v : Nat) : (emitSetPwm v s).ccr = v := rfl
@[simp] theorem emitSetPwm_xfer (v : Nat) : (emitSetPwm v s).xfer = s.xfer := rfl
@[simp] theorem emitSetPwm_notifyPending (v : Nat) : (emitSetPwm v s).notifyPending = s.notifyPending := rfl
@[simp] theorem emitSetPwm_tcTrace (v : Nat) :
    (emitSetPwm v s).tcTrace = s.tcTrace ++ [{ chan := s.tcCfg, call := .setPwm v }] := rfl
@[simp] theorem emitSetPwm_rspTrace (v : Nat) : (emitSetPwm v s).rspTrace = s.rspTrace := rfl
@[simp] theorem emitSetPwm_cfgPort (v : Nat) : (emitSetPwm v s).cfgPort = s.cfgPort := rfl
@[simp] theorem emitSetPwm_tcStart (v : Nat) : (emitSetPwm v s).tcStart = s.tcStart := rfl
@[simp] theorem emitSetPwm_input (v : Nat) : (emitSetPwm v s).input = s.input := rfl
@[simp] theorem emitSetPwm_draws (v : Nat) : (emitSetPwm v s).draws = s.draws := rfl

@[simp] theorem emitStartDma_params (n : Nat) : (emitStartDma n s).params = s.params := rfl
@[simp] theorem emitStartDma_x (n : Nat) : (emitStartDma n s).x = s.x := rfl
@[simp] theorem emitStartDma_activeCount (n : Nat) : (emitStartDma n s).activeCount = s.activeCount := rfl
@[simp] theorem emitStartDma_period (n : Nat) : (emitStartDma n s).period = s.period := rfl
@[simp] theorem emitStartDma_zeroThreshold (n : Nat) : (emitStartDma n s).zeroThreshold = s.zeroThreshold := rfl
@[simp] theorem emitStartDma_oneThreshold (n : Nat) : (emitStartDma n s).oneThreshold = s.oneThreshold := rfl
@[simp] theorem emitStartDma_txbuf (n : Nat) : (emitStartDma n s).txbuf = s.txbuf := rfl
@[simp] theorem emitStartDma_ready (n : Nat) : (emitStartDma n s).ready = s.ready := rfl
@[simp] theorem emitStartDma_inited (n : Nat) : (emitStartDma n s).inited = s.inited := rfl
@[simp] theorem emitStartDma_tcCfg (n : Nat) : (emitStartDma n s).tcCfg = s.tcCfg := rfl
@[simp] theorem emitStartDma_ccr (n : Nat) : (emitStartDma n s).ccr = s.ccr := rfl
@[simp] theorem emitStartDma_xfer (n : Nat) : (emitStartDma n s).xfer = xferAfterStart n s := rfl
@[simp] theorem emitStartDma_notifyPending (n : Nat) : (emitStartDma n s).notifyPending = s.notifyPending := rfl
@[simp] theorem emitStartDma_tcTrace (n : Nat) : (emitStartDma n s).tcTrace =
    s.tcTrace ++ [{ chan := s.tcCfg, call := .startDma .txbuf n .notifyInput .thisInstance }] := rfl
@[simp] theorem emitStartDma_rspTrace (n : Nat) : (emitStartDma n s).rspTrace = s.rspTrace := rfl
@[simp] theorem emitStartDma_cfgPort (n : Nat) : (emitStartDma n s).cfgPort = s.cfgPort := rfl
@[simp] theorem emitStartDma_tcStart (n : Nat) : (emitStartDma n s).tcStart = none := rfl
@[simp] theorem emitStartDma_input (n : Nat) : (emitStartDma n s).input = s.input := rfl
@[simp] theorem emitStartDma_draws (n : Nat) : (emitStartDma n s).draws = s.draws + 1 := rfl

/-! ### The small updates, each as one record update -/

theorem respond_eq (r : Response) : respond r s = { s with rspTrace := s.rspTrace ++ [r] } := rfl
theorem becomeReady_eq : becomeReady s = { s with ready := true } := rfl
theorem becomeBusy_eq : becomeBusy s = { s with ready := false } := rfl
theorem becomeInited_eq : becomeInited s = { s with inited := true } := rfl
theorem enterCompletion_eq : enterCompletion s = { s with notifyPending := false } := rfl
@[simp] theorem leaveCompletion_eq : leaveCompletion s = s := rfl
theorem finish_eq : finish s = { s with xfer := .none, notifyPending := true } := rfl

/-! ### The flags' test -/

theorem whenInited_of_inited (k : Result) (h : s.inited = true) : whenInited s k = k := by
  simp [whenInited, h]

theorem whenInited_of_not (k : Result) (h : s.inited = false) :
    whenInited s k = .refused .notInited := by
  simp [whenInited, h]

/-- Everything `whenInited` can do with a next state. -/
theorem whenInited_next {k : Result} {t : State} (h : whenInited s k = .next t) :
    s.inited = true ∧ k = .next t := by
  unfold whenInited at h
  split at h
  · exact ⟨‹_›, h⟩
  · cases h

/-- Everything `withAccess` can do with a next state. -/
theorem withAccess_next {α : Type} {e : Except Fault α} {k : α → Result} {t : State}
    (h : withAccess e k = .next t) : ∃ a, e = .ok a ∧ k a = .next t := by
  cases e with
  | ok a => exact ⟨a, rfl, h⟩
  | error f => cases h

end Sys2Proof.Machine
end

