-- ==== Sys2Proof/Laws/Step.lean ====
section
/-! SUPPORT. What each meaning and each step can do, said once: one inversion lemma each, which later
proofs cite instead of unfolding. -/

namespace Sys2Proof.Machine

variable {s t : State}

/-! ### The meanings -/

/-- `INIT` goes on if and only if the block is not initialised, and then in one way. -/
theorem execInit_next : execInit s = .next t ↔ s.inited = false ∧ t =
    { s with
      inited := true
      ready := true
      activeCount := clampCount s.params s.cfgPort
      period := (timingFor s.params.wordW s.cfgPort s.draws).period
      zeroThreshold := (timingFor s.params.wordW s.cfgPort s.draws).zero
      oneThreshold := (timingFor s.params.wordW s.cfgPort s.draws).one
      tcCfg := tcCfgOf s.cfgPort
      tcTrace := s.tcTrace ++
        [{ chan := tcCfgOf s.cfgPort,
           call := tcInitCall s.cfgPort (timingFor s.params.wordW s.cfgPort s.draws).period },
         { chan := tcCfgOf s.cfgPort, call := .start }]
      txbuf := Memory.zeroBelow (bufLen s.params) s.txbuf
      draws := s.draws + 3 } := by
  unfold execInit
  cases h : s.inited <;>
    simp [emit, becomeInited, becomeReady, zeroBuffer, configure, eq_comm]

/-- A pixel write goes on unchanged, or with the one register set. -/
theorem setChannel_next {idx : Nat} {px : Pixel} (h : setChannel idx px s = .next t) :
    (s.activeCount ≤ idx ∧ t = s) ∨
      (idx < s.activeCount ∧ idx < s.x.length ∧ t = { s with x := s.x.set idx px }) := by
  unfold setChannel at h
  split at h
  · obtain ⟨x', hx, ht⟩ := withAccess_next h
    simp only [Host.Outcome.next.injEq] at ht
    unfold pxWrite at hx
    split at hx
    · simp only [Except.ok.injEq] at hx
      exact .inr ⟨‹_›, ‹_›, by rw [← ht, ← hx]⟩
    · cases hx
  · simp only [Host.Outcome.next.injEq] at h
    exact .inl ⟨by omega, h.symm⟩

/-- A pixel write in a well-formed state. -/
theorem setChannel_of_wf (hs : s.WF) (idx : Nat) (px : Pixel) :
    setChannel idx px s =
      .next (if idx < s.activeCount then { s with x := s.x.set idx px } else s) := by
  have := hs.x_length
  have := hs.active_le
  unfold setChannel
  split
  · rw [pxWrite_of_lt _ _ _ (by omega)]
    rfl
  · rfl

theorem execSetRgb_next {idx : Nat} {r g b : Byte} (h : execSetRgb idx r g b s = .next t) :
    s.inited = true ∧ setChannel idx { r := r, g := g, b := b } s = .next t :=
  whenInited_next s h

theorem execSetPacked_next {idx : Nat} {c : Colour} (h : execSetPacked idx c s = .next t) :
    s.inited = true ∧ setChannel idx (unpack c) s = .next t :=
  whenInited_next s h

/-- A fill changes the pixel registers only. -/
theorem fillWith_next {px : Pixel} (h : fillWith px s = .next t) :
    ∃ x', pxWriteAll s.x px s.activeCount = .ok x' ∧ t = { s with x := x' } := by
  obtain ⟨x', hx, ht⟩ := withAccess_next h
  simp only [Host.Outcome.next.injEq] at ht
  exact ⟨x', hx, ht.symm⟩

/-- A fill in a well-formed state. -/
theorem fillWith_of_wf (hs : s.WF) (px : Pixel) :
    ∃ x', fillWith px s = .next { s with x := x' } ∧ x'.length = s.x.length ∧
      ∀ i, pxRead x' i = if i < s.activeCount then .ok px else pxRead s.x i := by
  obtain ⟨x', heq, hlen, hread⟩ :=
    pxWriteAll_ok s.x px s.activeCount (hs.x_length ▸ hs.active_le)
  exact ⟨x', by simp [fillWith, heq, withAccess], hlen, hread⟩

theorem execFill_next {c : Colour} (h : execFill c s = .next t) :
    s.inited = true ∧ fillWith (unpack c) s = .next t :=
  whenInited_next s h

theorem execClear_next (h : execClear s = .next t) :
    s.inited = true ∧ fillWith { r := 0#8, g := 0#8, b := 0#8 } s = .next t :=
  whenInited_next s h

/-- `GET` gives one response and changes nothing else. -/
theorem execGet_next {idx : Nat} (h : execGet idx s = .next t) : s.inited = true ∧
    ((idx < s.activeCount ∧ ∃ px, pxRead s.x idx = .ok px ∧ t = respond (.pixel (pack px)) s) ∨
      (s.activeCount ≤ idx ∧ t = respond (.pixel 0#24) s)) := by
  obtain ⟨hi, h⟩ := whenInited_next s h
  refine ⟨hi, ?_⟩
  split at h
  · obtain ⟨px, hpx, ht⟩ := withAccess_next h
    simp only [Host.Outcome.next.injEq] at ht
    exact .inl ⟨‹_›, px, hpx, ht.symm⟩
  · simp only [Host.Outcome.next.injEq] at h
    exact .inr ⟨by omega, h.symm⟩

/-- `SHOW` is dropped in `BUSY`, and in `READY` encodes and starts a frame. -/
theorem execShow_next (h : execShow s = .next t) : s.inited = true ∧
    ((s.ready = false ∧ t = s) ∨
      (s.ready = true ∧ ∃ m, encodeFrame s = .ok m ∧ t = startFrame m s)) := by
  obtain ⟨hi, h⟩ := whenInited_next s h
  refine ⟨hi, ?_⟩
  split at h
  · obtain ⟨m, hm, ht⟩ := withAccess_next h
    simp only [Host.Outcome.next.injEq] at ht
    exact .inr ⟨‹_›, m, hm, ht.symm⟩
  · simp only [Host.Outcome.next.injEq] at h
    exact .inl ⟨by simpa using ‹¬ s.ready = true›, h.symm⟩

theorem execTcDone_next : execTcDone s = .next t ↔
    s.inited = true ∧ t = completionHandler (enterCompletion s) := by
  unfold execTcDone whenInited
  cases s.inited <;> simp [eq_comm]

theorem execStatus_next : execStatus s = .next t ↔
    s.inited = true ∧ t = respond (.status (statusBit s)) s := by
  unfold execStatus whenInited
  cases s.inited <;> simp [eq_comm]

/-! ### `SHOW`'s tail, field by field -/

variable (m : Memory) (s)

@[simp] theorem startFrame_params : (startFrame m s).params = s.params := rfl
@[simp] theorem startFrame_x : (startFrame m s).x = s.x := rfl
@[simp] theorem startFrame_activeCount : (startFrame m s).activeCount = s.activeCount := rfl
@[simp] theorem startFrame_period : (startFrame m s).period = s.period := rfl
@[simp] theorem startFrame_zeroThreshold : (startFrame m s).zeroThreshold = s.zeroThreshold := rfl
@[simp] theorem startFrame_oneThreshold : (startFrame m s).oneThreshold = s.oneThreshold := rfl
@[simp] theorem startFrame_txbuf : (startFrame m s).txbuf = m := rfl
@[simp] theorem startFrame_ready : (startFrame m s).ready = false := rfl
@[simp] theorem startFrame_inited : (startFrame m s).inited = s.inited := rfl
@[simp] theorem startFrame_tcCfg : (startFrame m s).tcCfg = s.tcCfg := rfl
@[simp] theorem startFrame_ccr : (startFrame m s).ccr = 0 := rfl
@[simp] theorem startFrame_xfer : (startFrame m s).xfer = xferAfterStart (burstLen s) s := rfl
@[simp] theorem startFrame_notifyPending :
    (startFrame m s).notifyPending = s.notifyPending := rfl
@[simp] theorem startFrame_tcTrace : (startFrame m s).tcTrace = s.tcTrace ++
    [{ chan := s.tcCfg, call := .setPwm 0 },
     { chan := s.tcCfg, call := .startDma .txbuf (burstLen s) .notifyInput .thisInstance }] := by
  simp [startFrame, becomeBusy, burstLen]
@[simp] theorem startFrame_rspTrace : (startFrame m s).rspTrace = s.rspTrace := rfl
@[simp] theorem startFrame_cfgPort : (startFrame m s).cfgPort = s.cfgPort := rfl
@[simp] theorem startFrame_tcStart : (startFrame m s).tcStart = none := rfl
@[simp] theorem startFrame_input : (startFrame m s).input = s.input := rfl
@[simp] theorem startFrame_draws : (startFrame m s).draws = s.draws + 1 := rfl

variable {m s}

/-! ### Everything an operation can do -/

theorem setChannel_only_x {idx : Nat} {px : Pixel} (h : setChannel idx px s = .next t) :
    t = { s with x := t.x } ∧ t.x.length = s.x.length := by
  rcases setChannel_next h with ⟨-, rfl⟩ | ⟨-, -, rfl⟩ <;> simp

theorem fillWith_only_x {px : Pixel} (h : fillWith px s = .next t) :
    t = { s with x := t.x } ∧ t.x.length = s.x.length := by
  obtain ⟨x', hx, rfl⟩ := fillWith_next h
  exact ⟨rfl, pxWriteAll_length _ _ _ _ hx⟩

/-- The handler as one record update. -/
theorem completionHandler_eq (s : State) : completionHandler (enterCompletion s) =
    { s with
      ready := true
      notifyPending := false
      ccr := if s.params.idleOnDone then 0 else s.ccr
      tcTrace := if s.params.idleOnDone then s.tcTrace ++ [{ chan := s.tcCfg, call := .setPwm 0 }]
        else s.tcTrace } := by
  unfold completionHandler
  cases h : s.params.idleOnDone <;> simp [h, enterCompletion, becomeReady, emitSetPwm, emit]

/-- Everything an operation can do with a next state, by its effect. -/
theorem exec_next_cases {i : Instr} (h : exec i s = .next t) :
    (i = .init ∧ s.inited = false ∧ execInit s = .next t) ∨
      (s.inited = true ∧
        (((∃ idx r g b, i = .setRgb idx r g b) ∨ (∃ idx c, i = .setPacked idx c) ∨
            (∃ c, i = .fill c) ∨ i = .clear) ∧ t = { s with x := t.x } ∧
            t.x.length = s.x.length ∨
          (∃ idx c, i = .get idx ∧ t = respond (.pixel c) s) ∨
          (i = .status ∧ t = respond (.status (statusBit s)) s) ∨
          (i = .showFrame ∧ s.ready = false ∧ t = s) ∨
          (i = .showFrame ∧ s.ready = true ∧ ∃ m, encodeFrame s = .ok m ∧ t = startFrame m s) ∨
          (i = .tcDone ∧ t = completionHandler (enterCompletion s)))) := by
  cases i with
  | init => exact .inl ⟨rfl, (execInit_next.1 h).1, h⟩
  | setRgb idx r g b =>
    obtain ⟨hi, h⟩ := execSetRgb_next h
    exact .inr ⟨hi, .inl ⟨by simp, setChannel_only_x h⟩⟩
  | setPacked idx c =>
    obtain ⟨hi, h⟩ := execSetPacked_next h
    exact .inr ⟨hi, .inl ⟨by simp, setChannel_only_x h⟩⟩
  | fill c =>
    obtain ⟨hi, h⟩ := execFill_next h
    exact .inr ⟨hi, .inl ⟨by simp, fillWith_only_x h⟩⟩
  | clear =>
    obtain ⟨hi, h⟩ := execClear_next h
    exact .inr ⟨hi, .inl ⟨by simp, fillWith_only_x h⟩⟩
  | get idx =>
    obtain ⟨hi, ⟨-, px, -, ht⟩ | ⟨-, ht⟩⟩ := execGet_next h
    · exact .inr ⟨hi, .inr (.inl ⟨idx, _, rfl, ht⟩)⟩
    · exact .inr ⟨hi, .inr (.inl ⟨idx, _, rfl, ht⟩)⟩
  | status =>
    obtain ⟨hi, h⟩ := execStatus_next.1 h
    exact .inr ⟨hi, .inr (.inr (.inl ⟨rfl, h⟩))⟩
  | showFrame =>
    obtain ⟨hi, h | h⟩ := execShow_next h
    · exact .inr ⟨hi, .inr (.inr (.inr (.inl ⟨rfl, h⟩)))⟩
    · exact .inr ⟨hi, .inr (.inr (.inr (.inr (.inl ⟨rfl, h⟩))))⟩
  | tcDone =>
    obtain ⟨hi, h⟩ := execTcDone_next.1 h
    exact .inr ⟨hi, .inr (.inr (.inr (.inr (.inr ⟨rfl, h⟩))))⟩

/-! ### The DMA engine's turn -/

/-- What the engine's turn can do: nothing, one `BEAT`, or `FINISH`. -/
theorem dmaTurn_next (h : dmaTurn s = .next t) :
    (t = s ∧ ∀ len pos, s.xfer = .active len pos → len < pos) ∨
      (∃ len pos w, s.xfer = .active len pos ∧ pos < len ∧ txRead s.params s.txbuf pos = .ok w ∧
        t = { s with ccr := w, xfer := .active len (pos + 1) }) ∨
      (∃ len, s.xfer = .active len len ∧ t = finish s) := by
  unfold dmaTurn at h
  split at h
  · rename_i hx
    simp only [Host.Outcome.next.injEq] at h
    exact .inl ⟨h.symm, by simp [hx]⟩
  · rename_i hx
    simp only [Host.Outcome.next.injEq] at h
    exact .inl ⟨h.symm, by simp [hx]⟩
  · rename_i len pos hx
    split at h
    · obtain ⟨w, hw, ht⟩ := withAccess_next h
      simp only [Host.Outcome.next.injEq] at ht
      exact .inr (.inl ⟨len, pos, w, hx, ‹_›, hw, ht.symm⟩)
    · split at h
      · rename_i hpl
        subst hpl
        simp only [Host.Outcome.next.injEq] at h
        exact .inr (.inr ⟨_, hx, h.symm⟩)
      · simp only [Host.Outcome.next.injEq] at h
        refine .inl ⟨h.symm, fun len' pos' he => ?_⟩
        rw [hx] at he
        injection he
        omega

/-! ### The step -/

/-- What a step can do: nothing where no input is left; the next input's operation; or one of the
inputs that run no operation. -/
theorem step_next (h : step s = .next t) :
    (s.input = [] ∧ nextInstr s = none ∧ t = s) ∨
      (∃ i, nextInstr s = some i ∧ exec i (pastInput s) = .next t) ∨
      (nextInstr s = none ∧
        (t = pastInput s ∨
          (s.input.head? = some .dma ∧ dmaTurn (pastInput s) = .next t) ∨
          (∃ c, t = { pastInput s with cfgPort := c }) ∨
          (∃ b, t = { pastInput s with tcStart := some b }))) := by
  unfold step runInput at h
  split at h
  · rename_i hin
    simp only [Host.Outcome.next.injEq] at h
    exact .inl ⟨hin, by simp [nextInstr, hin], h.symm⟩
  · rename_i e rest hin
    have hpast : pastInput s = { s with input := rest } := by simp [pastInput, hin]
    rw [← hpast] at h
    refine .inr ?_
    cases e with
    | command ctx cw =>
      cases ctx with
      | completion => cases h
      | main =>
        simp only [runEvent, runCommand, runPort, decode] at h
        split at h
        · rename_i i hi
          exact .inl ⟨i, by simp [nextInstr, hin, hi, Except.toOption], h⟩
        · cases h
    | notify line =>
      simp only [runEvent, runNotify] at h
      split at h
      · rename_i hl
        simp only [Host.Outcome.next.injEq] at h
        exact .inr ⟨by simp [nextInstr, hin, hl, decodeNotify, Except.toOption], .inl h.symm⟩
      · simp only [runPort, decode] at h
        split at h
        · rename_i i hi
          exact .inl ⟨i, by simp [nextInstr, hin, hi, Except.toOption], h⟩
        · cases h
    | dma => exact .inr ⟨by simp [nextInstr, hin], .inr (.inl ⟨by simp [hin], h⟩)⟩
    | present c =>
      simp only [runEvent, Host.Outcome.next.injEq] at h
      exact .inr ⟨by simp [nextInstr, hin], .inr (.inr (.inl ⟨c, h.symm⟩))⟩
    | chooseStart b =>
      simp only [runEvent, Host.Outcome.next.injEq] at h
      exact .inr ⟨by simp [nextInstr, hin], .inr (.inr (.inr ⟨b, h.symm⟩))⟩

/-! ### Runs -/

/-- A run of one step more goes on from the next state. -/
theorem core_run_succ {k : Nat} (h : step s = .next t) :
    Host.Core.run Sys2Proof.core (k + 1) s = Host.Core.run Sys2Proof.core k t := by
  have hc : Sys2Proof.core.step s = .next t := h
  simp only [Host.Core.run]
  rw [hc]

/-- A delivered notification of an initialised block, as one record update. -/
theorem step_of_notify {rest : List Event} (hi : s.inited = true)
    (hin : s.input = .notify 1#1 :: rest) : step s = .next
    { s with
      input := rest
      ready := true
      notifyPending := false
      ccr := if s.params.idleOnDone then 0 else s.ccr
      tcTrace := if s.params.idleOnDone then s.tcTrace ++ [{ chan := s.tcCfg, call := .setPwm 0 }]
        else s.tcTrace } := by
  unfold step runInput
  rw [hin]
  refine (execTcDone_next (s := { s with input := rest })).2 ⟨hi, ?_⟩
  rw [completionHandler_eq]

end Sys2Proof.Machine
end

