-- ==== Sys2Proof/Tests/Slice0.lean ====
section
/-! SUPPORT. Tests: the checks of `WellFormed`, decoding of words written out from the spec, the
spec's vectors (95_test_vectors.md, cited as V<n>), single steps on small states, and for every
statement with hypotheses a witness that meets them. -/

namespace Sys2Proof.Tests

open Sys2Proof.Machine

/-! ### Well-formedness refuses what it must -/

theorem test_wf_refuses_setRgb_index : (Instr.setRgb 65536 0#8 0#8 0#8).wf = false := by decide
theorem test_wf_refuses_setPacked_index : (Instr.setPacked 65536 0#24).wf = false := by decide
theorem test_wf_refuses_get_index : (Instr.get 65536).wf = false := by decide
theorem test_wf_accepts_last_index : (Instr.get 65535).wf = true := by decide
theorem test_params_refuse_no_channel :
    Params.wf { maxCh := 0, wordW := 32, guard := true, idleOnDone := false } = false := by decide
theorem test_params_refuse_too_many_channels :
    Params.wf { maxCh := 65536, wordW := 32, guard := true, idleOnDone := false } = false := by decide
theorem test_params_refuse_no_width :
    Params.wf { maxCh := 64, wordW := 0, guard := true, idleOnDone := false } = false := by decide

/-! ### Decoding (V90 to V107) -/

/-- The decoder gives this instruction. -/
def reads (cw : CmdWord) (i : Instr) : Bool :=
  match decodeCmd cw with
  | .ok j => i == j
  | .error _ => false

/-- The decoder gives this reason. -/
def rejects (cw : CmdWord) (e : DecodeReject) : Bool :=
  match decodeCmd cw with
  | .ok _ => false
  | .error f => e == f

theorem test_decode_init : reads 0x0100000000000000#64 .init = true := by decide
theorem test_decode_setRgb : reads 0x020000000100FF00#64 (.setRgb 1 0 255 0) = true := by decide
theorem test_decode_setRgb_largest :
    reads 0x020000FFFFFFFFFF#64 (.setRgb 65535 255 255 255) = true := by decide
theorem test_decode_setPacked :
    reads 0x0300000005123456#64 (.setPacked 5 0x123456) = true := by decide
theorem test_decode_fill : reads 0x0400000000123456#64 (.fill 0x123456) = true := by decide
theorem test_decode_clear : reads 0x0500000000000000#64 .clear = true := by decide
theorem test_decode_show : reads 0x0600000000000000#64 .showFrame = true := by decide
theorem test_decode_get : reads 0x0700000003000000#64 (.get 3) = true := by decide
theorem test_decode_status : reads 0x0800000000000000#64 .status = true := by decide
theorem test_decode_tcDone : decodeTableWord 8 1 = some .tcDone := by decide
theorem test_decode_table_show : decodeTableWord 64 0x0600000000000000 = some .showFrame := by decide
theorem test_decode_op_00 : rejects 0x0000000000000000#64 .unknownOpcode = true := by decide
theorem test_decode_op_09 : rejects 0x0900000000000000#64 .unknownOpcode = true := by decide
theorem test_decode_show_unused : rejects 0x0600000000000001#64 .unusedNotZero = true := by decide
theorem test_decode_fill_idx : rejects 0x0400000001123456#64 .unusedNotZero = true := by decide
theorem test_decode_rsv : rejects 0x0200010000FF0000#64 .reservedNotZero = true := by decide
theorem test_decode_get_colour : rejects 0x0700000003000001#64 .unusedNotZero = true := by decide
theorem test_decode_rsv_all : rejects 0x02FFFF00FFFFFFFF#64 .reservedNotZero = true := by decide

/-! ### The calculator (V1 to V19) -/

/-- A record of form A. -/
def cfgA (fClk presc fSym zNum zDen oNum oDen : Nat) : CfgRecord :=
  { unsetCfg with
    reqCount := 3#16
    fClkHz := fClk
    prescDiv := presc
    timing := .fractions fSym zNum zDen oNum oDen }

/-- A record of form B. -/
def cfgB (fClk presc tSym t0h t1h : Nat) : CfgRecord :=
  { unsetCfg with
    reqCount := 1#16
    fClkHz := fClk
    prescDiv := presc
    timing := .durations tSym t0h t1h }

/-- The calculator gives these three values. -/
def gives (w : Nat) (c : CfgRecord) (p z o : Nat) : Bool :=
  derive w c == some { period := p, zero := z, one := o }

theorem test_V1 : gives 32 (cfgA 200000000 1 800000 8 25 16 25) 249 80 159 = true := by decide
theorem test_V2 : gives 32 (cfgB 240000000 1 1250 400 800) 299 96 191 = true := by decide
theorem test_V3_tie_upward : gives 32 (cfgA 200000000 1 800000 1 2 3 4) 249 125 187 = true := by decide
theorem test_V4 : gives 32 (cfgB 100000000 1 1200 350 700) 119 35 69 = true := by decide
theorem test_V5_prescaler : gives 32 (cfgA 240000000 3 800000 1 3 2 3) 99 33 66 = true := by decide
theorem test_V7_truncates : gives 32 (cfgA 72000000 1 833333 7 24 7 12) 85 25 50 = true := by decide
theorem test_V9_floor_of_tick :
    gives 32 (cfgA 100000000 3 800000 8 25 16 25) 40 13 26 = true := by decide
theorem test_V10_smallest : gives 32 (cfgA 800000 1 800000 8 25 16 25) 0 0 0 = true := by decide
theorem test_V13_above_one : gives 32 (cfgA 200000000 1 800000 5 4 3 2) 249 311 374 = true := by decide
theorem test_V14 : gives 32 (cfgB 84000000 1 1250 350 900) 104 29 75 = true := by decide
theorem test_V15 : gives 32 (cfgA 1600000 1 800000 1 2 1 1) 1 1 1 = true := by decide
theorem test_V8_no_tick : derive 32 (cfgA 500000 1 800000 8 25 16 25) = none := by decide
theorem test_V16_presc : derive 32 (cfgA 200000000 0 800000 8 25 16 25) = none := by decide
theorem test_V17_fSym : derive 32 (cfgA 200000000 1 0 8 25 16 25) = none := by decide
theorem test_V18_zDen : derive 32 (cfgA 200000000 1 800000 8 0 16 25) = none := by decide
theorem test_V19_width : derive 8 (cfgA 200000000 1 400000 8 25 16 25) = none := by decide
theorem test_V1_valid : cfgValid 32 (cfgA 200000000 1 800000 8 25 16 25) = true := by decide
theorem test_V12_not_valid : cfgValid 32 (cfgA 200000000 1 800000 16 25 8 25) = false := by decide

/-! ### Words and slots (V30 to V58) -/

theorem test_V34_enc8 : enc8 80 159 0xA5#8 = [159, 80, 159, 80, 80, 159, 80, 159] := by decide
theorem test_V33_enc8 : enc8 80 159 0x01#8 = [80, 80, 80, 80, 80, 80, 80, 159] := by decide
theorem test_V39_red_is_second :
    enc24 80 159 { r := 0xFF, g := 0x00, b := 0x00 } =
      List.replicate 8 80 ++ List.replicate 8 159 ++ List.replicate 8 80 := by decide
theorem test_V54_slot :
    slot { maxCh := 64, wordW := 32, guard := true, idleOnDone := false } 2 2 0 = 72 := by decide
theorem test_V56_slot :
    slot { maxCh := 64, wordW := 32, guard := false, idleOnDone := false } 2 2 0 = 71 := by decide
theorem test_V58_bufLen :
    bufLen { maxCh := 64, wordW := 32, guard := true, idleOnDone := false } = 1538 := by decide
theorem test_dec_midpoint : (dec 80 159 119, dec 80 159 120) = (false, true) := by decide

/-! ### Small states -/

/-- Two pixel registers of which one is active, 8-bit words, guard slots: `BUF_LEN = 50`, `L = 26`. -/
def demo (input : List Event) : State :=
  { State.reset with
    params := { maxCh := 2, wordW := 8, guard := true, idleOnDone := false }
    x := [{ r := 0xA5, g := 0x5A, b := 0xC3 }, { r := 1, g := 2, b := 3 }]
    activeCount := 1
    period := 9
    zeroThreshold := 3
    oneThreshold := 6
    ready := true
    inited := true
    ccr := 0
    input := input }

/-- The same in `BUSY`, with the burst as given. -/
def demoBusy (xfer : Xfer) (input : List Event) : State :=
  { demo input with ready := false, xfer := xfer }

/-- The same before `INIT`, with a record on `CFG`. -/
def demoOff (c : CfgRecord) (input : List Event) : State :=
  { demo input with inited := false, ready := false, cfgPort := c }

/-- A property of the next state. -/
def nextSatisfies (r : Result) (p : State → Bool) : Bool :=
  match r with
  | .next t => p t
  | .fault _ => false
  | .refused _ => false

/-- The host's command. -/
def cmd (cw : CmdWord) : Event := .command .main cw

theorem test_V64_setRgb_at_active_count :
    nextSatisfies (exec (.setRgb 1 9 9 9) (demo [])) (· == demo []) = true := by decide
theorem test_V60_setPacked_layout :
    nextSatisfies (exec (.setPacked 0 0x112233) (demo []))
      (fun t => t.x.head? == some { r := 0x11, g := 0x22, b := 0x33 }) = true := by decide
theorem test_V67_fill :
    nextSatisfies (exec (.fill 0x0000FF) (demo []))
      (fun t => t.x == [{ r := 0, g := 0, b := 255 }, { r := 1, g := 2, b := 3 }]) = true := by decide
theorem test_V68_clear :
    nextSatisfies (exec .clear (demo []))
      (fun t => t.x == [{ r := 0, g := 0, b := 0 }, { r := 1, g := 2, b := 3 }]) = true := by decide
theorem test_get_active :
    nextSatisfies (exec (.get 0) (demo []))
      (fun t => t.rspTrace == [.pixel 0xA55AC3]) = true := by decide
theorem test_V66_get_at_active_count :
    nextSatisfies (exec (.get 1) (demo [])) (fun t => t.rspTrace == [.pixel 0]) = true := by decide
theorem test_V71_show :
    nextSatisfies (exec .showFrame (demo []))
      (fun t => !t.ready && startDmaCount t == 1 && t.tcTrace.map TcEmit.call ==
        [.setPwm 0, .startDma .txbuf 26 .notifyInput .thisInstance]) = true := by decide
/-- P4's frame, with thresholds 3 and 6. -/
theorem test_show_frame :
    nextSatisfies (exec .showFrame (demo []))
      (fun t => t.txbuf.map Prod.snd ==
        [3, 6, 3, 6, 6, 3, 6, 3] ++ [6, 3, 6, 3, 3, 6, 3, 6] ++ [6, 6, 3, 3, 3, 3, 6, 6] &&
        t.txbuf.head? == some (1, 3)) = true := by decide
theorem test_V72_show_busy :
    nextSatisfies (exec .showFrame (demoBusy .dead [])) (· == demoBusy .dead []) = true := by decide
theorem test_V74_tcDone :
    nextSatisfies (exec .tcDone (demoBusy .none []))
      (fun t => t.ready && t.tcTrace == []) = true := by decide
theorem test_V74_tcDone_idle :
    nextSatisfies (exec .tcDone { demoBusy .none [] with
        params := { maxCh := 2, wordW := 8, guard := true, idleOnDone := true }, ccr := 5 })
      (fun t => t.ready && t.ccr == 0 && t.tcTrace.map TcEmit.call == [.setPwm 0]) = true := by
  decide
theorem test_status_busy :
    nextSatisfies (exec .status (demoBusy .dead []))
      (fun t => t.rspTrace == [.status 0#1]) = true := by decide
theorem test_V20_init :
    nextSatisfies (exec .init { demoOff (cfgA 200000000 1 800000 8 25 16 25) [] with
        params := { maxCh := 64, wordW := 32, guard := true, idleOnDone := false } })
      (fun t => t.activeCount == 3 && t.period == 249 && t.zeroThreshold == 80 &&
        t.oneThreshold == 159 && t.ready && t.inited) = true := by decide
theorem test_V23_init_clamps :
    nextSatisfies (exec .init (demoOff { cfgB 100000000 1 1200 350 700 with reqCount := 65535 } []))
      (fun t => t.activeCount == 2 && t.tcTrace.map TcEmit.call ==
        [.init 0 0 0 .activeHigh 1 119, .start]) = true := by decide
theorem test_V79_show_before_init :
    exec .showFrame (demoOff unsetCfg []) = .refused .notInited := rfl
theorem test_V80_second_init : exec .init (demo []) = .refused .alreadyInited := rfl
theorem test_beat :
    nextSatisfies (step { demoBusy (.active 26 1) [.dma] with txbuf := [(1, 3)] })
      (fun t => t.ccr == 3 && t.xfer == .active 26 2) = true := by decide
theorem test_finish :
    nextSatisfies (step (demoBusy (.active 26 26) [.dma]))
      (fun t => t.xfer == .none && t.notifyPending) = true := by decide
theorem test_step_from_reset_runs_init :
    nextSatisfies (step (State.reset.withFetchWord 64 0x0100000000000000))
      (fun t => t.inited && t.ready) = true := by decide

/-! ### Witnesses: states and operands that meet the statements' hypotheses -/

theorem demo_wf (input : List Event) : (demo input).WF :=
  { params_wf := rfl, x_length := rfl, active_le := (by decide : 1 ≤ 2),
    period_lt := (by decide : 9 < 2 ^ 8), zero_lt := (by decide : 3 < 2 ^ 8),
    one_lt := (by decide : 6 < 2 ^ 8), ccr_lt := (by decide : 0 < 2 ^ 8),
    txbuf_wf := rfl, txbuf_fits := rfl }

theorem demoBusy_wf (xfer : Xfer) (input : List Event) : (demoBusy xfer input).WF :=
  { params_wf := rfl, x_length := rfl, active_le := (by decide : 1 ≤ 2),
    period_lt := (by decide : 9 < 2 ^ 8), zero_lt := (by decide : 3 < 2 ^ 8),
    one_lt := (by decide : 6 < 2 ^ 8), ccr_lt := (by decide : 0 < 2 ^ 8),
    txbuf_wf := rfl, txbuf_fits := rfl }

theorem demo_txOk (input : List Event) : TxOk (demo input) :=
  { data_words := fun _ _ _ => .inl rfl, other_words := fun _ _ _ => rfl }

theorem demoBusy_txOk (xfer : Xfer) (input : List Event) : TxOk (demoBusy xfer input) :=
  { data_words := fun _ _ _ => .inl rfl, other_words := fun _ _ _ => rfl }

theorem demo_handshakeOk (input : List Event) : HandshakeOk (demo input) :=
  { ready_idle := fun _ => ⟨rfl, rfl⟩, pending_over := fun _ => rfl
    before_init := fun _ => ⟨rfl, rfl⟩
    burst_bounds := fun _ _ h => Xfer.noConfusion h }

theorem witness_DecodeOfEncodeGivesInstruction : (Instr.setRgb 65535 1 2 3).wf = true := by decide
theorem witness_EncodeOfDecodeGivesWord :
    decode (.cmd 0x020000FFFFFFFFFF#64) = .ok (.setRgb 65535 255 255 255) := by rfl
theorem witness_DecodableWordsAreTheTableRows :
    ∃ row ∈ opcodeRows, row.hits 0x020000FFFFFFFFFF#64 = true := by decide

theorem witness_StepRunsDecodedInstruction :
    (demo [cmd 0x0500000000000000#64]).input = .command .main 0x0500000000000000#64 :: [] ∧
    decodeCmd 0x0500000000000000#64 = .ok .clear ∧
    (demo [.notify 1#1]).input = .notify 1#1 :: [] ∧
    decodeTableWord 64 0x0500000000000000 = some .clear :=
  ⟨rfl, rfl, rfl, rfl⟩

theorem witness_OtherInputsDoOnlyTheirOwn :
    (demo [cmd 0#64]).input = .command .main 0#64 :: [] ∧
    decodeCmd 0#64 = .error .unknownOpcode ∧
    (demo [.command .completion 0#64]).input = .command .completion 0#64 :: [] ∧
    (demo [.notify 0#1]).input = .notify 0#1 :: [] ∧
    (demo [.present unsetCfg]).input = .present unsetCfg :: [] ∧
    (demo [.chooseStart false]).input = .chooseStart false :: [] ∧ (demo []).input = [] :=
  ⟨rfl, rfl, rfl, rfl, rfl, rfl, rfl⟩

theorem witness_LifecycleRefusals :
    Instr.showFrame ≠ .init ∧ State.reset.inited = false ∧ (demo []).inited = true :=
  ⟨by decide, rfl, rfl⟩

theorem witness_InitEstablishesInitialState : State.reset.inited = false := rfl

theorem witness_ActiveCountIsSetOnceAndClamped :
    State.reset.inited = false ∧ (demo [.dma]).inited = true ∧
    (∃ t, step (demo [.dma]) = .next t) ∧ nextInstr (demo [.dma]) ≠ some .init :=
  ⟨rfl, rfl, ⟨_, rfl⟩, by decide⟩

theorem witness_InitZeroesBufferAndIsOnlyGuardWrite :
    State.reset.inited = false ∧ 0 < bufLen State.reset.params ∧ (demo [.dma]).inited = true ∧
    (∃ t, step (demo [.dma]) = .next t) ∧ 0 < guardSlots (demo [.dma]).params ∧
    guardSlots (demo [.dma]).params + 24 * (demo [.dma]).activeCount ≤ 25 :=
  ⟨rfl, by decide, rfl, ⟨_, rfl⟩, by decide, by decide⟩

/-- V19's width with values that just fit: `q = 256`, and a threshold of 255. -/
theorem witness_FractionRecordGivesTheseRegisters :
    ∃ s : State, s.inited = false ∧ s.cfgPort.timing = .fractions 1 1 2 1 1 ∧
      1 ≤ s.cfgPort.prescDiv ∧ 256 = s.cfgPort.fClkHz / s.cfgPort.prescDiv / 1 ∧
      256 - 1 < 2 ^ s.params.wordW ∧
      (2 * (256 - 1) * 1 + 2) / (2 * 2) < 2 ^ s.params.wordW ∧
      (2 * (256 - 1) * 1 + 1) / (2 * 1) < 2 ^ s.params.wordW :=
  ⟨demoOff (cfgA 256 1 1 1 2 1 1) [], rfl, rfl, by decide, rfl, by decide, by decide, by decide⟩

theorem witness_DurationRecordGivesTheseRegisters :
    ∃ s : State, s.inited = false ∧ s.cfgPort.timing = .durations 1250 400 800 ∧
      1 ≤ s.cfgPort.prescDiv ∧
      250 = s.cfgPort.fClkHz / s.cfgPort.prescDiv * 1250 / 1000000000 ∧
      250 - 1 < 2 ^ s.params.wordW ∧
      (2 * (250 - 1) * 400 + 1250) / (2 * 1250) < 2 ^ s.params.wordW ∧
      (2 * (250 - 1) * 800 + 1250) / (2 * 1250) < 2 ^ s.params.wordW :=
  ⟨demoOff (cfgB 200000000 1 1250 400 800) [], rfl, rfl, by decide, rfl, by decide, by decide,
    by decide⟩

/-- One record for each way to have no result: V16, V17, V8, V19, and a threshold too wide. -/
theorem witness_MisconfiguredInitStillCompletes :
    (demoOff (cfgA 1 0 1 1 1 1 1) []).inited = false ∧
    (cfgA 200000000 0 800000 8 25 16 25).prescDiv = 0 ∧
    divisorsOk (cfgA 200000000 1 0 8 25 16 25).timing = false ∧
    symbolTicks (500000 / 1) (cfgA 500000 1 800000 8 25 16 25).timing = 0 ∧
    2 ^ 8 ≤ symbolTicks (200000000 / 1) (cfgA 200000000 1 400000 8 25 16 25).timing - 1 ∧
    2 ^ 8 ≤ roundFraction (250 - 1) (zeroFraction (cfgA 200000000 1 800000 5 4 3 2).timing) ∧
    2 ^ 8 ≤ roundFraction (250 - 1) (oneFraction (cfgA 200000000 1 800000 5 4 3 2).timing) := by
  decide

/-- V11 against V1. -/
theorem witness_ConfigurationFormsAgree :
    1250 * 800000 = 1000000000 ∧ 1 ≤ 25 ∧ 8 * 1250 = 400 * 25 ∧ 16 * 1250 = 800 * 25 := by decide

/-- V3's tie. -/
theorem witness_RoundingIsNearestTiesUpward : 1 ≤ 2 ∧ roundFraction 249 (1, 2) = 125 := by decide

/-- V9, whose request is no whole number of ticks, and V4. -/
theorem witness_RealisedSymbolIsWithinOneTick :
    derive 32 (cfgA 100000000 3 800000 8 25 16 25) = some { period := 40, zero := 13, one := 26 } ∧
    derive 32 (cfgB 100000000 1 1200 350 700) = some { period := 119, zero := 35, one := 69 } := by
  decide

/-- An active index, and the first one that is not: a register exists there. -/
theorem witness_PixelWritesObeyTheAccessRule :
    ∃ s : State, s.WF ∧ s.inited = true ∧ 0 < s.activeCount ∧ s.activeCount ≤ 1 ∧ 1 < s.x.length :=
  ⟨demo [], demo_wf [], rfl, by decide, by decide, by decide⟩

theorem witness_ConvenienceFormsAreExpansions : ∃ s : State, s.WF ∧ s.inited = true :=
  ⟨demo [], demo_wf [], rfl⟩

theorem witness_FillAndClearWriteEveryActivePixel :
    ∃ s : State, s.WF ∧ s.inited = true ∧ 0 < s.activeCount :=
  ⟨demo [], demo_wf [], rfl, by decide⟩

theorem witness_GetRespondsPixelOrZero :
    ∃ s : State, s.WF ∧ s.inited = true ∧ 0 < s.activeCount ∧ s.activeCount ≤ 1 :=
  ⟨demo [], demo_wf [], rfl, by decide, by decide⟩

theorem witness_GetAfterWriteRespondsWritten :
    ∃ s : State, s.WF ∧ s.inited = true ∧ 0 < s.activeCount :=
  ⟨demo [], demo_wf [], rfl, by decide⟩

theorem witness_PixelOperationsStayInTheLedFrame :
    ∃ s : State, s.WF ∧ s.inited = true ∧ s.ready = false ∧
      ∃ idx r g b, Instr.setRgb 0 1 2 3 = .setRgb idx r g b :=
  ⟨demoBusy .dead [], demoBusy_wf _ _, rfl, rfl, 0, 1, 2, 3, rfl⟩

theorem witness_ShowResetsCompareStartsBurstGoesBusy :
    (∃ s : State, s.WF ∧ s.inited = true ∧ s.ready = true) ∧
    ∃ s t : State, s.ready = false ∧ exec .showFrame s = .next t :=
  ⟨⟨demo [], demo_wf [], rfl, rfl⟩, ⟨demoBusy .dead [], _, rfl, rfl⟩⟩

theorem witness_ShowEncodesGreenRedBlueMsbFirst :
    ∃ s : State, s.WF ∧ s.inited = true ∧ s.ready = true ∧ 0 < s.activeCount ∧
      pxRead s.x 0 = .ok { r := 0xA5, g := 0x5A, b := 0xC3 } ∧ 7 < 8 :=
  ⟨demo [], demo_wf [], rfl, rfl, by decide, rfl, by decide⟩

/-- Each of the three choices of the start. -/
theorem witness_ShowChangesOnlyDataSlotsAndBurst (c : Option Bool) :
    ∃ s : State, s.WF ∧ s.inited = true ∧ s.ready = true ∧ s.xfer = .none ∧ s.tcStart = c :=
  ⟨{ demo [] with tcStart := c }, { demo_wf [] with }, rfl, rfl, rfl, rfl⟩

theorem witness_ShowInBusyIsDropped : ∃ s : State, s.inited = true ∧ s.ready = false :=
  ⟨demoBusy .dead [], rfl, rfl⟩

theorem witness_DecodingTheWordsGivesTheByte : (80 : Nat) < 159 := by decide

theorem witness_ShownFrameDecodesToThePixels :
    ∃ s : State, s.WF ∧ s.inited = true ∧ s.ready = true ∧ s.zeroThreshold < s.oneThreshold ∧
      0 < s.activeCount ∧ pxRead s.x 0 = .ok { r := 0xA5, g := 0x5A, b := 0xC3 } :=
  ⟨demo [], demo_wf [], rfl, rfl, by decide, by decide, rfl⟩

/-- V54 and V50, and the last register of the buffer. -/
theorem witness_SlotsAreDistinctAndInRange :
    slot (demo []).params 0 0 7 = slot (demo []).params 0 0 7 ∧
    (1 : Nat) < (demo []).params.maxCh ∧ slot (demo []).params 1 2 0 = 48 := by decide

theorem witness_CompletionHandlerSetsReady :
    (∃ s : State, s.inited = true ∧ s.params.idleOnDone = false) ∧
    (∃ s : State, s.inited = true ∧ s.params.idleOnDone = true) ∧
    ∃ s : State, s.inited = false :=
  ⟨⟨demo [], rfl, rfl⟩,
    ⟨{ demo [] with
        params := { maxCh := 2, wordW := 8, guard := true, idleOnDone := true } }, rfl, rfl⟩,
    ⟨State.reset, rfl⟩⟩

theorem witness_StatusRespondsReadiness : ∃ s : State, s.inited = true := ⟨demo [], rfl⟩

/-- A taken `SHOW`, a completion, and neither. -/
theorem witness_ReadinessMovesOnlyByShowAndCompletion :
    (∃ s t : State, s.inited = true ∧ step s = .next t ∧ nextInstr s = some .showFrame) ∧
    (∃ s t : State, s.inited = true ∧ step s = .next t ∧ nextInstr s = some .tcDone) ∧
    ∃ s t : State, s.inited = true ∧ step s = .next t ∧ nextInstr s = some .clear :=
  ⟨⟨demo [cmd 0x0600000000000000#64], _, rfl, rfl, rfl⟩,
    ⟨demoBusy .none [.notify 1#1], _, rfl, rfl, rfl⟩,
    ⟨demo [cmd 0x0500000000000000#64], _, rfl, rfl, rfl⟩⟩

theorem witness_ConfigurationIsFixedAfterInit :
    ∃ s t : State, s.inited = true ∧ step s = .next t :=
  ⟨demo [cmd 0x0600000000000000#64], _, rfl, rfl⟩

theorem witness_EmittedCallsAreThoseOfTheTable :
    (∃ s t : State, step s = .next t ∧ nextInstr s = some .init) ∧
    ∃ s t : State, step s = .next t ∧ (callsOfNext s).length = 2 :=
  ⟨⟨demoOff unsetCfg [cmd 0x0100000000000000#64], _, rfl, rfl⟩,
    ⟨demo [cmd 0x0600000000000000#64], _, rfl, rfl⟩⟩

theorem witness_OneStartDmaPerReadyShow :
    (∃ s t : State, step s = .next t ∧ showTaken s = true) ∧
    ∃ s t : State, step s = .next t ∧ showTaken s = false ∧ nextInstr s = some .showFrame :=
  ⟨⟨demo [cmd 0x0600000000000000#64], _, rfl, rfl⟩,
    ⟨demoBusy .dead [cmd 0x0600000000000000#64], _, rfl, rfl, rfl⟩⟩

theorem witness_OnlyGetAndStatusRespond :
    (∃ s t : State, step s = .next t ∧ nextInstr s = some (.get 0)) ∧
    (∃ s t : State, step s = .next t ∧ nextInstr s = some .status) ∧
    ∃ s t : State, step s = .next t ∧ nextInstr s = some .clear :=
  ⟨⟨demo [cmd 0x0700000000000000#64], _, rfl, rfl⟩,
    ⟨demo [cmd 0x0800000000000000#64], _, rfl, rfl⟩,
    ⟨demo [cmd 0x0500000000000000#64], _, rfl, rfl⟩⟩

theorem witness_BufferChangesOnlyByInitOrReadyShow :
    nextSatisfies (step (demo [cmd 0x0600000000000000#64])) (fun t => t.txbuf != []) = true ∧
    nextSatisfies (step { demoOff unsetCfg [cmd 0x0100000000000000#64] with txbuf := [(1, 3)] })
      (fun t => t.txbuf != [(1, 3)]) = true := by decide

theorem witness_StuckBusyIsPermanent :
    ∃ s t : State, stuckBusy s = true ∧ InContract s ∧ s.WF ∧ s.inited = true ∧ s.ready = false ∧
      nextInstr s ≠ some .tcDone ∧ step s = .next t ∧ Instr.clear ≠ .init ∧
      Instr.clear ≠ .showFrame ∧ Instr.clear ≠ .tcDone :=
  ⟨demoBusy .dead [cmd 0x0500000000000000#64], _, rfl,
    fun h => absurd h (by decide : ¬ (some Instr.clear = some Instr.tcDone)),
    demoBusy_wf _ _, rfl, rfl, (by decide : ¬ (some Instr.clear = some Instr.tcDone)), rfl,
    by decide, by decide, by decide⟩

theorem witness_DmaTurnTakesTheEnabledStep :
    (demoBusy (.active 26 25) [.dma]).input = .dma :: [] ∧
    ((demoBusy (.active 26 25) [.dma]).xfer = .active 26 25 ∧ 25 < 26 ∧
      26 ≤ bufLen (demo []).params) ∧
    (demoBusy (.active 26 26) [.dma]).xfer = .active 26 26 ∧
    (demoBusy .dead [.dma]).xfer = .dead := by decide

/-- Half-way through a burst, and at its last `BEAT`. -/
theorem witness_BurstSendsTheSnapshotInOrder :
    (∃ s : State, s.inited = true ∧ s.ready = false ∧ s.xfer = .active 26 10 ∧ noCompletion 2 s) ∧
    ∃ s : State, s.xfer = .active 26 25 ∧ 26 ≤ bufLen s.params ∧
      s.input = List.replicate (26 - 25) .dma ++ [] ∧ s.input.head? = some .dma ∧
      ∃ t, step s = .next t := by
  refine ⟨⟨demoBusy (.active 26 10) [.dma, .notify 0#1], rfl, rfl, rfl, ?_⟩,
    ⟨demoBusy (.active 26 25) [.dma], rfl, by decide, rfl, rfl, _, rfl⟩⟩
  refine ⟨by decide, fun t ht => ?_⟩
  have : step (demoBusy (.active 26 10) [.dma, .notify 0#1]) =
      .next (demoBusy (.active 26 11) [.notify 0#1]) := rfl
  rw [this, Host.Outcome.next.injEq] at ht
  subst ht
  exact ⟨by decide, fun _ _ => trivial⟩

theorem witness_ServedBurstEndsReady :
    ∃ s : State, s.inited = true ∧ s.xfer = .active 26 25 ∧ 25 ≤ 26 ∧ 26 ≤ bufLen s.params ∧
      s.input = List.replicate (26 - 25 + 1) .dma ++ [.notify 1#1] :=
  ⟨demoBusy (.active 26 25) [.dma, .dma, .notify 1#1], rfl, rfl, by decide, by decide, rfl⟩

theorem witness_ShowAndCompletionInEitherOrder (input : List Event) :
    ∃ s : State, s.WF ∧ s.inited = true ∧ s.ready = false ∧ s.xfer = .none ∧
      s.notifyPending = true ∧ s.input = input :=
  ⟨{ demoBusy .none input with notifyPending := true }, { demoBusy_wf .none input with },
    rfl, rfl, rfl, rfl, rfl⟩

theorem witness_GuardedBurstEndsIdle :
    ∃ s t : State, s.WF ∧ TxOk s ∧ s.inited = true ∧ s.params.guard = true ∧
      s.input.head? = some .dma ∧ s.xfer = .active (burstLen s) 25 ∧ 25 + 1 = burstLen s ∧
      step s = .next t :=
  ⟨demoBusy (.active 26 25) [.dma], _, demoBusy_wf _ _, demoBusy_txOk _ _, rfl, rfl, rfl, rfl,
    rfl, rfl⟩

theorem witness_StepKeepsStatesWellFormed : ∃ s t : State, s.WF ∧ step s = .next t :=
  ⟨demo [cmd 0x0600000000000000#64], _, demo_wf _, rfl⟩

theorem witness_StepKeepsHandshakeConsistent :
    ∃ s t : State, HandshakeOk s ∧ InContract s ∧ step s = .next t :=
  ⟨demo [cmd 0x0600000000000000#64], _, demo_handshakeOk _,
    fun h => absurd h (by decide : ¬ (some Instr.showFrame = some Instr.tcDone)), rfl⟩

theorem witness_StepKeepsBufferContent : ∃ s t : State, s.WF ∧ TxOk s ∧ step s = .next t :=
  ⟨demo [cmd 0x0600000000000000#64], _, demo_wf _, demo_txOk _, rfl⟩

theorem witness_ShowFillsDataSlotsWithThresholds :
    ∃ s : State, s.WF ∧ TxOk s ∧ s.inited = true ∧ s.ready = true :=
  ⟨demo [], demo_wf _, demo_txOk _, rfl, rfl⟩

theorem witness_NoStepFaults : ∃ s : State, s.WF ∧ HandshakeOk s :=
  ⟨demo [cmd 0x0600000000000000#64], demo_wf _, demo_handshakeOk _⟩

/-- Two machines with different pixels, whose next input is a `SHOW`. -/
theorem witness_PixelValuesStayInTheFrame :
    ∃ s s' t : State, SameButPixels s s' ∧ s.x ≠ s'.x ∧ step s = .next t :=
  ⟨demo [cmd 0x0600000000000000#64],
    { demo [cmd 0x0600000000000000#64] with
      x := [{ r := 7, g := 7, b := 7 }, { r := 7, g := 7, b := 7 }] },
    _, { same_length := rfl, same_rest := rfl },
    (by decide : ¬ ([⟨0xA5, 0x5A, 0xC3⟩, ⟨1, 2, 3⟩] : List Pixel) = [⟨7, 7, 7⟩, ⟨7, 7, 7⟩]), rfl⟩

theorem witness_QuiescentMeansNoExternalStep :
    runOver (demo []) = true ∧ quiescent (demo [.dma]) = true ∧ (demo [.dma]).input = .dma :: [] := by
  decide

end Sys2Proof.Tests
end

section
/-! PROOFS. The configuration registers: `INIT` writes them once, and no other operation and no other
input writes them (10_state.md R22, R24, R28, R29). -/

namespace Sys2Proof.Machine

variable {s t : State}

/-- `s` and `t` agree on what `INIT` sets up and nothing else writes: the lifecycle flag,
`active_count`, the timing registers, `tc_cfg`; and on the build parameters. -/
structure SameConfig (s t : State) : Prop where
  params : t.params = s.params
  inited : t.inited = s.inited
  activeCount : t.activeCount = s.activeCount
  period : t.period = s.period
  zeroThreshold : t.zeroThreshold = s.zeroThreshold
  oneThreshold : t.oneThreshold = s.oneThreshold
  tcCfg : t.tcCfg = s.tcCfg

theorem SameConfig.refl (s : State) : SameConfig s s := ⟨rfl, rfl, rfl, rfl, rfl, rfl, rfl⟩

theorem SameConfig.trans {s t u : State} (h : SameConfig s t) (k : SameConfig t u) :
    SameConfig s u where
  params := k.params.trans h.params
  inited := k.inited.trans h.inited
  activeCount := k.activeCount.trans h.activeCount
  period := k.period.trans h.period
  zeroThreshold := k.zeroThreshold.trans h.zeroThreshold
  oneThreshold := k.oneThreshold.trans h.oneThreshold
  tcCfg := k.tcCfg.trans h.tcCfg

/-- Taking an input off the schedule writes no register. -/
theorem SameConfig.pastInput (s : State) : SameConfig s (pastInput s) :=
  ⟨rfl, rfl, rfl, rfl, rfl, rfl, rfl⟩

/-- `INIT` completes exactly where the block is not initialised, with the clamped count. -/
theorem exec_init_of_not_inited (hi : s.inited = false) : ∃ t, exec .init s = .next t ∧
    t.activeCount = clampCount s.params s.cfgPort ∧ t.params = s.params ∧ t.inited = true :=
  ⟨_, execInit_next.2 ⟨hi, rfl⟩, rfl, rfl, rfl⟩

/-- Every operation but `INIT` keeps the configuration. -/
theorem exec_keeps_config {i : Instr} (hne : i ≠ .init) (h : exec i s = .next t) :
    SameConfig s t := by
  obtain ⟨hinit, -, -⟩ | ⟨-, ⟨-, hx, -⟩ | ⟨_, _, -, rfl⟩ | ⟨-, rfl⟩ | ⟨-, -, rfl⟩ |
    ⟨-, -, m, -, rfl⟩ | ⟨-, rfl⟩⟩ := exec_next_cases h
  · exact absurd hinit hne
  · rw [hx]
    exact ⟨rfl, rfl, rfl, rfl, rfl, rfl, rfl⟩
  · exact ⟨rfl, rfl, rfl, rfl, rfl, rfl, rfl⟩
  · exact ⟨rfl, rfl, rfl, rfl, rfl, rfl, rfl⟩
  · exact .refl _
  · exact ⟨rfl, rfl, rfl, rfl, rfl, rfl, rfl⟩
  · rw [completionHandler_eq]
    exact ⟨rfl, rfl, rfl, rfl, rfl, rfl, rfl⟩

/-- The DMA engine's turn keeps the configuration: it writes `ccr`, the burst and the pending
notification only (60_exceptions.md R227). -/
theorem dmaTurn_keeps_config (h : dmaTurn s = .next t) : SameConfig s t := by
  obtain ⟨rfl, -⟩ | ⟨_, _, _, -, -, -, rfl⟩ | ⟨_, -, rfl⟩ := dmaTurn_next h
  · exact .refl _
  · exact ⟨rfl, rfl, rfl, rfl, rfl, rfl, rfl⟩
  · exact ⟨rfl, rfl, rfl, rfl, rfl, rfl, rfl⟩

/-- Every step whose input is not `INIT` keeps the configuration. -/
theorem step_keeps_config (h : step s = .next t) (hne : nextInstr s ≠ some .init) :
    SameConfig s t := by
  obtain ⟨-, -, rfl⟩ | ⟨i, hi, hex⟩ | ⟨-, rfl | ⟨-, hd⟩ | ⟨_, rfl⟩ | ⟨_, rfl⟩⟩ := step_next h
  · exact .refl _
  · exact (SameConfig.pastInput s).trans (exec_keeps_config (fun he => hne (he ▸ hi)) hex)
  · exact .pastInput s
  · exact (SameConfig.pastInput s).trans (dmaTurn_keeps_config hd)
  · exact ⟨rfl, rfl, rfl, rfl, rfl, rfl, rfl⟩
  · exact ⟨rfl, rfl, rfl, rfl, rfl, rfl, rfl⟩

/-- From an initialised state no step runs `INIT`: it would be refused (40_init_timing.md R128). -/
theorem nextInstr_ne_init_of_step (hi : s.inited = true) (h : step s = .next t) :
    nextInstr s ≠ some .init := by
  intro hn
  obtain ⟨-, hnone, -⟩ | ⟨i, hsome, hex⟩ | ⟨hnone, -⟩ := step_next h
  · simp [hn] at hnone
  · obtain rfl : Instr.init = i := by simpa [hn] using hsome
    have hoff : s.inited = false := (execInit_next.1 hex).1
    simp [hi] at hoff
  · simp [hn] at hnone

/-- Every step from an initialised state keeps the configuration. -/
theorem step_keeps_config_of_inited (hi : s.inited = true) (h : step s = .next t) :
    SameConfig s t :=
  step_keeps_config h (nextInstr_ne_init_of_step hi h)

/-- Settles O10: `INIT` clamps, and every step that is not `INIT` keeps the configuration. -/
theorem activeCountIsSetOnceAndClamped : Obligations.ActiveCountIsSetOnceAndClamped := by
  refine ⟨fun s hi => ?_, fun s t hi h => ?_, fun s t h hne => (step_keeps_config h hne).activeCount⟩
  · obtain ⟨t, hex, hcount, hparams, hinit⟩ := exec_init_of_not_inited hi
    refine ⟨t, hex, hcount, ?_, hinit⟩
    rw [hcount, hparams]
    exact Nat.min_le_right _ _
  · have hk := step_keeps_config_of_inited hi h
    exact ⟨hk.activeCount, hk.inited.trans hi⟩

end Sys2Proof.Machine
end

section
/-! PROOFS. The access rule of the pixel registers (10_state.md R23). -/

namespace Sys2Proof.Machine

variable {s : State}

/-! ### An initialised block runs the pixel operations' bodies -/

theorem exec_setRgb_of_inited (hi : s.inited = true) (idx : Nat) (r g b : Byte) :
    exec (.setRgb idx r g b) s = setChannel idx { r := r, g := g, b := b } s :=
  whenInited_of_inited s _ hi

theorem exec_setPacked_of_inited (hi : s.inited = true) (idx : Nat) (c : Colour) :
    exec (.setPacked idx c) s = setChannel idx (unpack c) s :=
  whenInited_of_inited s _ hi

theorem exec_fill_of_inited (hi : s.inited = true) (c : Colour) :
    exec (.fill c) s = fillWith (unpack c) s :=
  whenInited_of_inited s _ hi

theorem exec_clear_of_inited (hi : s.inited = true) :
    exec .clear s = fillWith { r := 0#8, g := 0#8, b := 0#8 } s :=
  whenInited_of_inited s _ hi

/-! ### What the two bodies write -/

/-- A pixel write sets its register where that is active, and otherwise writes nothing. -/
theorem setChannel_access_rule (hs : s.WF) (idx : Nat) (px : Pixel) :
    ∃ t, setChannel idx px s = .next t ∧
      (idx < s.activeCount → pxRead t.x idx = .ok px) ∧
      (s.activeCount ≤ idx → t = s) ∧
      (∀ j, j ≠ idx → pxRead t.x j = pxRead s.x j) ∧ t = { s with x := t.x } := by
  refine ⟨_, setChannel_of_wf hs idx px, ?_⟩
  by_cases hlt : idx < s.activeCount
  · have hexists : idx < s.x.length := hs.x_length ▸ lt_of_lt_of_le hlt hs.active_le
    rw [if_pos hlt]
    exact ⟨fun _ => pxRead_set_same _ _ _ hexists, fun hle => absurd hlt hle.not_gt,
      fun j hj => pxRead_set_other _ _ _ _ hj, rfl⟩
  · rw [if_neg hlt]
    exact ⟨fun h => absurd h hlt, fun _ => rfl, fun _ _ => rfl, rfl⟩

/-- A fill writes no register at or beyond `active_count`, and nothing but registers. -/
theorem fillWith_access_rule (hs : s.WF) (px : Pixel) :
    ∃ t, fillWith px s = .next t ∧
      (∀ j, s.activeCount ≤ j → pxRead t.x j = pxRead s.x j) ∧ t = { s with x := t.x } := by
  obtain ⟨x', hfill, -, hread⟩ := fillWith_of_wf hs px
  exact ⟨_, hfill, fun j hj => (hread j).trans (if_neg hj.not_gt), rfl⟩

/-- Settles O18: each pixel operation is a single write or a fill, which obey the access rule. -/
theorem pixelWritesObeyTheAccessRule : Obligations.PixelWritesObeyTheAccessRule := by
  intro s hs hi
  refine ⟨fun idx r g b => ?_, fun idx c => ?_, fun c => ?_, ?_⟩
  · rw [exec_setRgb_of_inited hi]
    exact setChannel_access_rule hs idx _
  · rw [exec_setPacked_of_inited hi]
    exact setChannel_access_rule hs idx _
  · rw [exec_fill_of_inited hi]
    exact fillWith_access_rule hs _
  · rw [exec_clear_of_inited hi]
    exact fillWith_access_rule hs _

end Sys2Proof.Machine
end

section
/-! PROOFS. The words of a frame: where a taken `SHOW` leaves each bit of each active pixel
(30_encoding.md R82 to R84). -/

namespace Sys2Proof.Machine

variable {s : State} {m : Memory}

/-- `SHOW` in `READY` starts the frame that `encode_frame` leaves. -/
theorem exec_showFrame_of_ready (hi : s.inited = true) (hr : s.ready = true)
    (hm : encodeFrame s = .ok m) : exec .showFrame s = .next (startFrame m s) := by
  calc exec .showFrame s
    _ = if s.ready then withAccess (encodeFrame s) fun m => .next (startFrame m s) else .next s :=
      whenInited_of_inited s _ hi
    _ = .next (startFrame m s) := by rw [if_pos hr, hm]; rfl

/-- In a well-formed state `encode_frame` leaves the pulse of bit `b` of field `f` of each active
pixel `i` at `slot i f b` (20_memory.md R54). -/
theorem read_slot_of_encodeFrame (hs : s.WF) (hm : encodeFrame s = .ok m) {i : Nat} {px : Pixel}
    (hi : i < s.activeCount) (hpx : pxRead s.x i = .ok px) (f : Fin 3) (b : Fin 8) :
    Memory.read m (slot s.params i f b) =
      pulse s.zeroThreshold s.oneThreshold ((fieldByte f px).getLsbD b.val) := by
  obtain ⟨m', hm', -, -, hwords, -⟩ := encodeFrame_of_wf s hs
  obtain rfl : m = m' := by simpa [hm] using hm'
  have hlen : i < (s.x.take s.activeCount).length := by rwa [take_active_length s hs]
  have hget : (s.x.take s.activeCount)[i] = px := by
    obtain ⟨_, hx⟩ := List.getElem?_eq_some_iff.1 ((pxRead_eq_ok _ _ _).1 hpx)
    rw [List.getElem_take, hx]
  have hword := hwords (24 * i + (8 * f.val + (7 - b.val))) (by omega)
  rw [frameWords_get _ _ _ _ _ hlen (by omega), hget, enc24_get, Option.some.injEq] at hword
  rw [hword, slot]
  congr 1
  omega

/-- The same slots in increasing order: word `k` of a field is the pulse of its bit `7 - k`. -/
theorem read_fieldWord_of_encodeFrame (hs : s.WF) (hm : encodeFrame s = .ok m) {i k : Nat}
    {px : Pixel} (hi : i < s.activeCount) (hpx : pxRead s.x i = .ok px) (hk : k < 8) (f : Fin 3) :
    Memory.read m (guardSlots s.params + 24 * i + 8 * f.val + k) =
      pulse s.zeroThreshold s.oneThreshold ((fieldByte f px).getLsbD (7 - k)) := by
  have hread := read_slot_of_encodeFrame hs hm hi hpx f ⟨7 - k, by omega⟩
  rwa [slot, show 7 - (7 - k) = k by omega] at hread

/-- Settles O25: Green, Red and Blue are the fields 0, 1 and 2 of the frame that `SHOW` starts. -/
theorem showEncodesGreenRedBlueMsbFirst : Obligations.ShowEncodesGreenRedBlueMsbFirst := by
  intro s hs hi hr
  obtain ⟨m, hm, -⟩ := encodeFrame_of_wf s hs
  refine ⟨startFrame m s, exec_showFrame_of_ready hi hr hm, fun i px k hact hpx hk => ?_⟩
  have hfield := read_fieldWord_of_encodeFrame hs hm hact hpx hk
  exact ⟨hfield 0, hfield 1, hfield 2⟩

end Sys2Proof.Machine
end

section
/-! PROOFS. The source's decoding rule undoes the encoder (30_encoding.md R87). -/

namespace Sys2Proof.Machine

theorem dec_eq_true_iff (zw ow w : Nat) : dec zw ow w = true ↔ zw + ow ≤ 2 * w :=
  decide_eq_true_iff

/-- With the thresholds in order, the midpoint separates the two pulses. -/
theorem dec_pulse {zw ow : Nat} (h : zw < ow) (bit : Bool) : dec zw ow (pulse zw ow bit) = bit := by
  cases bit with
  | false => exact decide_eq_false (by omega : ¬ zw + ow ≤ 2 * zw)
  | true => exact decide_eq_true (by omega : zw + ow ≤ 2 * ow)

/-- With equal thresholds both pulses are at the midpoint. -/
theorem dec_pulse_of_equal (zw : Nat) (bit : Bool) : dec zw zw (pulse zw zw bit) = true := by
  rw [dec_eq_true_iff, (pulse_cases zw zw bit).elim id id]
  omega

/-- One step of `dec8`: a bit enters below the bits before it. -/
def shiftIn (acc : Byte) (bit : Bool) : Byte := (acc <<< 1) ||| (if bit then 1#8 else 0#8)

/-- Decoding an encoded byte shifts in, from bit 7 down, what each bit's pulse decodes to. -/
theorem dec8_enc8_eq_foldl (zw ow : Nat) (v : Byte) : dec8 zw ow (enc8 zw ow v) =
    (List.range 8).reverse.foldl
      (fun acc k => shiftIn acc (dec zw ow (pulse zw ow (v.getLsbD k)))) 0#8 :=
  rfl

/-- Bit `k` below the bits above it gives the bits from `k` on. -/
theorem shiftIn_ushiftRight (v : Byte) (k : Nat) :
    shiftIn (v >>> (k + 1)) (v.getLsbD k) = v >>> k := by
  unfold shiftIn
  ext j hj
  cases j with
  | zero => cases hbit : v.getLsbD k <;> simp [hbit]
  | succ j => cases v.getLsbD k <;> simp [show k + 1 + j = k + (j + 1) by omega]

/-- Shifting in the bits below `n`, highest first, completes the bits from `n` on to the byte. -/
theorem foldl_shiftIn_bits (v : Byte) (n : Nat) :
    (List.range n).reverse.foldl (fun acc k => shiftIn acc (v.getLsbD k)) (v >>> n) = v := by
  induction n with
  | zero => simp
  | succ n ih =>
    rw [List.range_succ, List.reverse_append, List.reverse_singleton, List.singleton_append,
      List.foldl_cons, shiftIn_ushiftRight, ih]

theorem dec8_enc8 {zw ow : Nat} (h : zw < ow) (v : Byte) : dec8 zw ow (enc8 zw ow v) = v := by
  have hempty : v >>> 8 = 0#8 := BitVec.ushiftRight_eq_zero (le_refl 8)
  rw [dec8_enc8_eq_foldl, ← hempty]
  simp only [dec_pulse h]
  exact foldl_shiftIn_bits v 8

theorem dec8_enc8_of_equal (zw : Nat) (v : Byte) : dec8 zw zw (enc8 zw zw v) = 0xFF#8 := by
  rw [dec8_enc8_eq_foldl]
  simp only [dec_pulse_of_equal]
  rfl

/-- Settles O28: the midpoint rule, its round trip, and its failure on equal thresholds. -/
theorem decodingTheWordsGivesTheByte : Obligations.DecodingTheWordsGivesTheByte :=
  ⟨dec_eq_true_iff, fun _ _ v h => dec8_enc8 h v, dec8_enc8_of_equal⟩

end Sys2Proof.Machine
end

section
/-! PROOFS. What a step leaves in the Transmit Buffer: `INIT` zeroes it (40_init_timing.md R125), and
from then on only a taken `SHOW` writes it, at the data slots (42_show_encoder.md R162). -/

namespace Sys2Proof.Machine

variable {s t : State}

/-- `INIT` of a block that is not initialised leaves 0 in every slot of the buffer. -/
theorem exec_init_zeroes_buffer (hi : s.inited = false) : ∃ t, exec .init s = .next t ∧
    ∀ a, a < bufLen s.params → Memory.read t.txbuf a = 0 :=
  ⟨_, execInit_next.2 ⟨hi, rfl⟩, fun a ha => (Memory.read_zeroBelow _ _ a).trans (if_pos ha)⟩

/-- `encode_frame` writes data slots only, whatever the state. -/
theorem encodeFrame_other {m : Memory} (h : encodeFrame s = .ok m) {a : Nat}
    (ha : a < guardSlots s.params ∨ guardSlots s.params + 24 * s.activeCount ≤ a) :
    Memory.read m a = Memory.read s.txbuf a := by
  unfold encodeFrame at h
  split at h
  case h_1 ps hps =>
    refine txWriteFrom_other _ _ _ _ _ _ h ?_
    rwa [frameWords_length, pxReadAll_length _ _ _ hps]
  case h_2 => cases h

/-- An operation of an initialised block leaves the buffer as it is, or is a `SHOW` taken in `READY`
and leaves the encoded frame. -/
theorem exec_txbuf_of_inited {i : Instr} (hi : s.inited = true) (h : exec i s = .next t) :
    t.txbuf = s.txbuf ∨ i = .showFrame ∧ s.ready = true ∧ encodeFrame s = .ok t.txbuf := by
  obtain ⟨-, hoff, -⟩ | ⟨-, ⟨-, hx, -⟩ | ⟨_, _, -, rfl⟩ | ⟨-, rfl⟩ | ⟨-, -, rfl⟩ |
    ⟨hshow, hready, m, hm, rfl⟩ | ⟨-, rfl⟩⟩ := exec_next_cases h
  · simp [hi] at hoff
  · rw [hx]
    exact .inl rfl
  · exact .inl rfl
  · exact .inl rfl
  · exact .inl rfl
  · exact .inr ⟨hshow, hready, hm⟩
  · rw [completionHandler_eq]
    exact .inl rfl

/-- The DMA engine reads the buffer and never writes it (60_exceptions.md R227). -/
theorem dmaTurn_keeps_txbuf (h : dmaTurn s = .next t) : t.txbuf = s.txbuf := by
  obtain ⟨rfl, -⟩ | ⟨_, _, _, -, -, -, rfl⟩ | ⟨_, -, rfl⟩ := dmaTurn_next h <;> rfl

/-- A step of an initialised block leaves the buffer as it is, or takes a `SHOW` in `READY` and leaves
the encoded frame. -/
theorem step_txbuf_of_inited (hi : s.inited = true) (h : step s = .next t) :
    t.txbuf = s.txbuf ∨
      nextInstr s = some .showFrame ∧ s.ready = true ∧ encodeFrame s = .ok t.txbuf := by
  obtain ⟨-, -, rfl⟩ | ⟨i, hn, hex⟩ | ⟨-, rfl | ⟨-, hd⟩ | ⟨_, rfl⟩ | ⟨_, rfl⟩⟩ := step_next h
  · exact .inl rfl
  · obtain hsame | ⟨rfl, hready, hm⟩ := exec_txbuf_of_inited (s := pastInput s) hi hex
    · exact .inl hsame
    · exact .inr ⟨hn, hready, hm⟩
  · exact .inl rfl
  · exact .inl (dmaTurn_keeps_txbuf (s := pastInput s) hd)
  · exact .inl rfl
  · exact .inl rfl

/-- Settles O11: `INIT` zeroes the buffer, and the one later writer, `encode_frame`, writes data slots
only. -/
theorem initZeroesBufferAndIsOnlyGuardWrite : Obligations.InitZeroesBufferAndIsOnlyGuardWrite := by
  refine ⟨fun s hi => exec_init_zeroes_buffer hi, fun s t hi h a ha => ?_⟩
  obtain hsame | ⟨-, -, hm⟩ := step_txbuf_of_inited hi h
  · rw [hsame]
  · exact encodeFrame_other hm ha

end Sys2Proof.Machine
end

section
/-! PROOFS. The pixel operations have no effect outside the LED Frame (41_pixel_ops.md R146). -/

namespace Sys2Proof.Machine

variable {s : State} {i : Instr}

/-- What R146 asks of one operation: it completes, and changes only the pixel registers or, if it is
`GET`, only the recorded responses. -/
def StaysInLedFrame (i : Instr) (s : State) : Prop :=
  ∃ t, exec i s = .next t ∧ t = { s with x := t.x, rspTrace := t.rspTrace } ∧
    ((∀ idx, i ≠ .get idx) → t.rspTrace = s.rspTrace) ∧ (∀ idx, i = .get idx → t.x = s.x)

/-- An operation other than `GET` that writes only pixel registers stays in the LED Frame. -/
theorem staysInLedFrame_of_writes_x (hne : ∀ idx, i ≠ .get idx)
    (h : ∃ t, exec i s = .next t ∧ t = { s with x := t.x }) : StaysInLedFrame i s := by
  obtain ⟨t, hexec, ht⟩ := h
  rw [ht] at hexec
  exact ⟨_, hexec, rfl, fun _ => rfl, fun idx hget => absurd hget (hne idx)⟩

theorem setChannel_writes_x (hs : s.WF) (idx : Nat) (px : Pixel) :
    ∃ t, setChannel idx px s = .next t ∧ t = { s with x := t.x } := by
  obtain ⟨t, hset, -, -, -, hframe⟩ := setChannel_access_rule hs idx px
  exact ⟨t, hset, hframe⟩

theorem fillWith_writes_x (hs : s.WF) (px : Pixel) :
    ∃ t, fillWith px s = .next t ∧ t = { s with x := t.x } := by
  obtain ⟨t, hfill, -, hframe⟩ := fillWith_access_rule hs px
  exact ⟨t, hfill, hframe⟩

theorem exec_get_of_inited (hi : s.inited = true) (idx : Nat) :
    exec (.get idx) s =
      if idx < s.activeCount then
        withAccess (pxRead s.x idx) fun px => .next (respond (.pixel (pack px)) s)
      else .next (respond (.pixel 0#24) s) :=
  whenInited_of_inited s _ hi

/-- `GET` completes with one response, since every active register exists. -/
theorem exec_get_responds (hs : s.WF) (hi : s.inited = true) (idx : Nat) :
    ∃ c, exec (.get idx) s = .next (respond (.pixel c) s) := by
  rw [exec_get_of_inited hi]
  by_cases hlt : idx < s.activeCount
  · have hexists : idx < s.x.length := hs.x_length ▸ lt_of_lt_of_le hlt hs.active_le
    rw [if_pos hlt, pxRead_of_lt _ _ hexists]
    exact ⟨_, rfl⟩
  · rw [if_neg hlt]
    exact ⟨_, rfl⟩

theorem get_staysInLedFrame (hs : s.WF) (hi : s.inited = true) (idx : Nat) :
    StaysInLedFrame (.get idx) s := by
  obtain ⟨c, hexec⟩ := exec_get_responds hs hi idx
  exact ⟨_, hexec, rfl, fun hne => absurd rfl (hne idx), fun _ _ => rfl⟩

/-- Settles O23: the four writing operations write only pixel registers, whatever `ready` is, and
`GET` only responds. -/
theorem pixelOperationsStayInTheLedFrame : Obligations.PixelOperationsStayInTheLedFrame := by
  rintro s i hs hi (⟨idx, r, g, b, rfl⟩ | ⟨idx, c, rfl⟩ | ⟨c, rfl⟩ | rfl | ⟨idx, rfl⟩)
  · refine staysInLedFrame_of_writes_x nofun ?_
    rw [exec_setRgb_of_inited hi]
    exact setChannel_writes_x hs idx _
  · refine staysInLedFrame_of_writes_x nofun ?_
    rw [exec_setPacked_of_inited hi]
    exact setChannel_writes_x hs idx _
  · refine staysInLedFrame_of_writes_x nofun ?_
    rw [exec_fill_of_inited hi]
    exact fillWith_writes_x hs _
  · refine staysInLedFrame_of_writes_x nofun ?_
    rw [exec_clear_of_inited hi]
    exact fillWith_writes_x hs _
  · exact get_staysInLedFrame hs hi idx

end Sys2Proof.Machine
end

section
/-! PROOFS. What `SHOW` does on the `TC` port, to `ccr` and to `ready`, in either state of the
handshake (42_show_encoder.md R161, R165, R167, R168). -/

namespace Sys2Proof.Machine

variable {s t : State}

/-- In a well-formed state the encoding reaches its end, so `SHOW` in `READY` starts a frame. -/
theorem exec_showFrame_starts_frame (hs : s.WF) (hi : s.inited = true) (hr : s.ready = true) :
    ∃ m, exec .showFrame s = .next (startFrame m s) := by
  obtain ⟨m, hm, -⟩ := encodeFrame_of_wf s hs
  exact ⟨m, exec_showFrame_of_ready hi hr hm⟩

/-- A `SHOW` that completes in `BUSY` changes nothing (42_show_encoder.md R168). -/
theorem eq_of_exec_showFrame_of_busy (hr : s.ready = false) (h : exec .showFrame s = .next t) :
    t = s := by
  obtain ⟨-, ⟨-, ht⟩ | ⟨hready, -⟩⟩ := execShow_next h
  · exact ht
  · simp [hr] at hready

/-- Settles O24: in `READY` the two calls are those of the frame that `SHOW` starts, and the start's
choice reaches neither them nor `ccr` nor `ready`; in `BUSY` nothing changes. -/
theorem showResetsCompareStartsBurstGoesBusy :
    Obligations.ShowResetsCompareStartsBurstGoesBusy := by
  refine ⟨fun s hs hi hr => ?_, fun s t hr h => ?_⟩
  · obtain ⟨m, hshow⟩ := exec_showFrame_starts_frame hs hi hr
    exact ⟨startFrame m s, burstLen s, hshow, startFrame_tcTrace s m, startFrame_ccr s m,
      startFrame_ready s m⟩
  · rw [eq_of_exec_showFrame_of_busy hr h]
    exact ⟨rfl, rfl⟩

end Sys2Proof.Machine
end

section
/-! PROOFS. `BUSY` is left by `TC_DONE` alone, and a failed start is stuck (43_handshake_fsm.md R191,
R197). -/

namespace Sys2Proof.Machine

variable {s t : State} {i : Instr}

/-- `s` and `t` agree on the two flags, on the DMA engine's burst and its notification, and on the
calls emitted so far. -/
structure SameHandshake (s t : State) : Prop where
  inited : t.inited = s.inited
  ready : t.ready = s.ready
  xfer : t.xfer = s.xfer
  notifyPending : t.notifyPending = s.notifyPending
  tcTrace : t.tcTrace = s.tcTrace

theorem stuckBusy_iff : stuckBusy s = true ↔
    s.inited = true ∧ s.ready = false ∧ s.xfer = .dead ∧ s.notifyPending = false := by
  simp [stuckBusy, and_assoc]

theorem SameHandshake.stuckBusy_eq (h : SameHandshake s t) : stuckBusy t = stuckBusy s := by
  simp [stuckBusy, h.inited, h.ready, h.xfer, h.notifyPending]

/-! ### What an operation and a step do in `BUSY` -/

/-- In `BUSY` only `TC_DONE` can touch the handshake: `INIT` is refused and `SHOW` is dropped, and the
other operations are not about it. -/
theorem exec_keeps_handshake_of_busy (hi : s.inited = true) (hr : s.ready = false)
    (hne : i ≠ .tcDone) (h : exec i s = .next t) : SameHandshake s t := by
  obtain ⟨-, hoff, -⟩ | ⟨-, ⟨-, hx, -⟩ | ⟨_, _, -, rfl⟩ | ⟨-, rfl⟩ | ⟨-, -, rfl⟩ |
    ⟨-, hready, -⟩ | ⟨hdone, -⟩⟩ := exec_next_cases h
  · simp [hi] at hoff
  · rw [hx]
    exact ⟨rfl, rfl, rfl, rfl, rfl⟩
  · exact ⟨rfl, rfl, rfl, rfl, rfl⟩
  · exact ⟨rfl, rfl, rfl, rfl, rfl⟩
  · exact ⟨rfl, rfl, rfl, rfl, rfl⟩
  · simp [hr] at hready
  · exact absurd hdone hne

/-- In `BUSY` a step other than `TC_DONE` keeps the handshake, unless it is the DMA engine's turn. -/
theorem step_keeps_handshake_or_dmaTurn (hi : s.inited = true) (hr : s.ready = false)
    (hne : nextInstr s ≠ some .tcDone) (h : step s = .next t) :
    SameHandshake s t ∨ dmaTurn (pastInput s) = .next t := by
  obtain ⟨-, -, rfl⟩ | ⟨i, hn, hex⟩ | ⟨-, rfl | ⟨-, hd⟩ | ⟨_, rfl⟩ | ⟨_, rfl⟩⟩ := step_next h
  · exact .inl ⟨rfl, rfl, rfl, rfl, rfl⟩
  · have hkeep : SameHandshake (pastInput s) t :=
      exec_keeps_handshake_of_busy hi hr (fun he => hne (he ▸ hn)) hex
    obtain ⟨hinited, hready, hxfer, hpending, htrace⟩ := hkeep
    exact .inl ⟨hinited, hready, hxfer, hpending, htrace⟩
  · exact .inl ⟨rfl, rfl, rfl, rfl, rfl⟩
  · exact .inr hd
  · exact .inl ⟨rfl, rfl, rfl, rfl, rfl⟩
  · exact .inl ⟨rfl, rfl, rfl, rfl, rfl⟩

/-! ### What the DMA engine's turn does there -/

/-- The engine never writes `ready`: the end of a burst leaves a pending notification only
(60_exceptions.md R227). -/
theorem dmaTurn_keeps_ready (h : dmaTurn s = .next t) : t.ready = s.ready := by
  obtain ⟨rfl, -⟩ | ⟨_, _, _, -, -, -, rfl⟩ | ⟨_, -, rfl⟩ := dmaTurn_next h <;> rfl

/-- After a failed start the engine has no step (60_exceptions.md R227). -/
theorem dmaTurn_of_dead (hx : s.xfer = .dead) : dmaTurn s = .next s := by
  simp [dmaTurn, hx]

/-- No step but `TC_DONE` leaves `BUSY`. -/
theorem step_keeps_busy (hi : s.inited = true) (hr : s.ready = false)
    (hne : nextInstr s ≠ some .tcDone) (h : step s = .next t) :
    t.inited = true ∧ t.ready = false := by
  refine ⟨(step_keeps_config_of_inited hi h).inited.trans hi, ?_⟩
  obtain hsame | hd := step_keeps_handshake_or_dmaTurn hi hr hne h
  · exact hsame.ready.trans hr
  · exact (dmaTurn_keeps_ready hd).trans hr

/-- With nothing pending, the contract delivers no `TC_DONE`. -/
theorem nextInstr_ne_tcDone_of_inContract (hn : s.notifyPending = false) (hc : InContract s) :
    nextInstr s ≠ some .tcDone := by
  intro hdone
  simp [hc hdone] at hn

/-- A step inside the contract keeps the handshake of a stuck block: no agent is left to move it. -/
theorem step_keeps_handshake_of_stuckBusy (hb : stuckBusy s = true) (hc : InContract s)
    (h : step s = .next t) : SameHandshake s t := by
  obtain ⟨hi, hr, hx, hn⟩ := stuckBusy_iff.1 hb
  obtain hsame | hd :=
    step_keeps_handshake_or_dmaTurn hi hr (nextInstr_ne_tcDone_of_inContract hn hc) h
  · exact hsame
  · obtain rfl : pastInput s = t := by simpa [dmaTurn_of_dead (s := pastInput s) hx] using hd
    exact ⟨rfl, rfl, rfl, rfl, rfl⟩

/-! ### Which operations complete -/

/-- A second `INIT` is refused (40_init_timing.md R128). -/
theorem exec_init_of_inited (hi : s.inited = true) : exec .init s = .refused .alreadyInited :=
  if_pos hi

/-- `SHOW` in `BUSY` is a no-op that completes (42_show_encoder.md R168). -/
theorem exec_showFrame_of_busy (hi : s.inited = true) (hr : s.ready = false) :
    exec .showFrame s = .next s := by
  calc exec .showFrame s
    _ = if s.ready then withAccess (encodeFrame s) fun m => .next (startFrame m s) else .next s :=
      whenInited_of_inited s _ hi
    _ = .next s := by rw [hr]; rfl

/-- Every operation of a well-formed initialised block completes, a second `INIT` apart. -/
theorem exec_completes_of_inited (hs : s.WF) (hi : s.inited = true) (hne : i ≠ .init) :
    ∃ t, exec i s = .next t := by
  obtain ⟨hrgb, hpacked, hfill, hclear⟩ := pixelWritesObeyTheAccessRule s hs hi
  cases i with
  | init => exact absurd rfl hne
  | setRgb idx r g b => exact (hrgb idx r g b).imp fun _ h => h.1
  | setPacked idx c => exact (hpacked idx c).imp fun _ h => h.1
  | fill c => exact (hfill c).imp fun _ h => h.1
  | clear => exact hclear.imp fun _ h => h.1
  | showFrame =>
    cases hr : s.ready with
    | false => exact ⟨_, exec_showFrame_of_busy hi hr⟩
    | true =>
      obtain ⟨m, hshow⟩ := exec_showFrame_starts_frame hs hi hr
      exact ⟨_, hshow⟩
  | get idx =>
    obtain ⟨c, hget⟩ := exec_get_responds hs hi idx
    exact ⟨_, hget⟩
  | status => exact ⟨_, execStatus_next.2 ⟨hi, rfl⟩⟩
  | tcDone => exact ⟨_, execTcDone_next.2 ⟨hi, rfl⟩⟩

/-- Settles O39: in `BUSY` only `TC_DONE` touches the handshake, and after a failed start none comes. -/
theorem stuckBusyIsPermanent : Obligations.StuckBusyIsPermanent := by
  refine ⟨fun s t => step_keeps_busy, fun s t hb hc h => ?_, fun s hb => ?_⟩
  · have hsame := step_keeps_handshake_of_stuckBusy hb hc h
    exact ⟨hsame.stuckBusy_eq.trans hb, hsame.tcTrace⟩
  · obtain ⟨hi, hr, -, -⟩ := stuckBusy_iff.1 hb
    refine ⟨exec_showFrame_of_busy hi hr, exec_init_of_inited hi, fun hs i hinit _ hdone => ?_⟩
    obtain ⟨t, hex⟩ := exec_completes_of_inited hs hi hinit
    have hsame := exec_keeps_handshake_of_busy hi hr hdone hex
    exact ⟨t, hex, hsame.stuckBusy_eq.trans hb⟩

end Sys2Proof.Machine
end

section
/-! PROOFS. `SHOW` in `BUSY` (60_exceptions.md R214). -/

namespace Sys2Proof.Machine

/-- Settles O27: past the `inited` check, `SHOW` takes the branch of `BUSY`, which ends in the same
state. -/
theorem showInBusyIsDropped : Obligations.ShowInBusyIsDropped :=
  fun _ hi hr => exec_showFrame_of_busy hi hr

end Sys2Proof.Machine
end

section
/-! PROOFS. Encoder and decoder are inverse to each other, and the decodable command words are those of
the opcode table (30_encoding.md sections B.2 to B.5). -/

namespace Sys2Proof

variable {cw : CmdWord} {i : Instr}

/-! ### Index operands -/

theorem indexFits_toNat (v : BitVec 16) : indexFits v.toNat = true := decide_eq_true v.isLt

theorem toNat_ofNat_of_indexFits {idx : Nat} (h : indexFits idx = true) :
    (BitVec.ofNat 16 idx).toNat = idx :=
  Nat.mod_eq_of_lt (of_decide_eq_true h)

/-! ### The fields that a format leaves unused -/

theorem unusedZero_N_iff : unusedZero .N cw = true ↔ cwIdx cw = 0#16 ∧ cwColour cw = 0#24 := by
  simp [unusedZero]

theorem unusedZero_I_iff : unusedZero .I cw = true ↔ cwColour cw = 0#24 := by
  simp [unusedZero]

theorem unusedZero_C_iff : unusedZero .C cw = true ↔ cwIdx cw = 0#16 := by
  simp [unusedZero]

/-! ### Decoding what was encoded -/

/-- The encoder leaves 0 in the reserved field; a format that also has 0 in its unused fields is
accepted. -/
theorem accept_mkCmd {f : Format} {op : BitVec 8} {idx : BitVec 16} {c : Colour}
    (hu : unusedZero f (mkCmd op idx c) = true) : accept f (mkCmd op idx c) i = .ok i :=
  (accept_ok _ _ _ _).2 ⟨cwRsv_mkCmd _ _ _, hu, rfl⟩

theorem decodeCmd_setRgb (idx : BitVec 16) (r g b : Byte) :
    decodeCmd (mkCmd 0x02#8 idx (r ++ g ++ b)) = .ok (.setRgb idx.toNat r g b) := by
  obtain ⟨hr, hg, hb⟩ := cw_bytes (mkCmd 0x02#8 idx (r ++ g ++ b))
  obtain ⟨hr', hg', hb'⟩ := colour_bytes r g b
  simp only [decodeCmd, cwOp_mkCmd, hr, hg, hb, cwColour_mkCmd, hr', hg', hb', cwIdx_mkCmd]
  exact accept_mkCmd rfl

theorem decodeCmd_setPacked (idx : BitVec 16) (c : Colour) :
    decodeCmd (mkCmd 0x03#8 idx c) = .ok (.setPacked idx.toNat c) := by
  simp only [decodeCmd, cwOp_mkCmd, cwIdx_mkCmd, cwColour_mkCmd]
  exact accept_mkCmd rfl

theorem decodeCmd_fill (c : Colour) : decodeCmd (mkCmd 0x04#8 0#16 c) = .ok (.fill c) := by
  simp only [decodeCmd, cwOp_mkCmd, cwColour_mkCmd]
  exact accept_mkCmd (unusedZero_C_iff.2 (cwIdx_mkCmd _ _ _))

theorem decodeCmd_get (idx : BitVec 16) :
    decodeCmd (mkCmd 0x07#8 idx 0#24) = .ok (.get idx.toNat) := by
  simp only [decodeCmd, cwOp_mkCmd, cwIdx_mkCmd]
  exact accept_mkCmd (unusedZero_I_iff.2 (cwColour_mkCmd _ _ _))

/-- Settles O1: the decoder reads each field that the encoder wrote, and an index that fits its field
survives it. -/
theorem decodeOfEncodeGivesInstruction : Obligations.DecodeOfEncodeGivesInstruction := by
  intro i hwf
  cases i with
  | setRgb idx r g b => exact (decodeCmd_setRgb _ r g b).trans (by rw [toNat_ofNat_of_indexFits hwf])
  | setPacked idx c => exact (decodeCmd_setPacked _ c).trans (by rw [toNat_ofNat_of_indexFits hwf])
  | fill c => exact decodeCmd_fill c
  | get idx => exact (decodeCmd_get _).trans (by rw [toNat_ofNat_of_indexFits hwf])
  | init | clear | showFrame | status | tcDone => rfl

/-! ### Encoding what was decoded -/

/-- Everything a command word can decode to: the operation of its opcode, with the reserved field and
the format's unused fields 0. -/
theorem decodeCmd_ok_cases (h : decodeCmd cw = .ok i) : cwRsv cw = 0#16 ∧
    (cwOp cw = 0x01#8 ∧ unusedZero .N cw = true ∧ i = .init ∨
      cwOp cw = 0x02#8 ∧ i = .setRgb (cwIdx cw).toNat (cwR cw) (cwG cw) (cwB cw) ∨
      cwOp cw = 0x03#8 ∧ i = .setPacked (cwIdx cw).toNat (cwColour cw) ∨
      cwOp cw = 0x04#8 ∧ unusedZero .C cw = true ∧ i = .fill (cwColour cw) ∨
      cwOp cw = 0x05#8 ∧ unusedZero .N cw = true ∧ i = .clear ∨
      cwOp cw = 0x06#8 ∧ unusedZero .N cw = true ∧ i = .showFrame ∨
      cwOp cw = 0x07#8 ∧ unusedZero .I cw = true ∧ i = .get (cwIdx cw).toNat ∨
      cwOp cw = 0x08#8 ∧ unusedZero .N cw = true ∧ i = .status) := by
  unfold decodeCmd at h
  split at h
  case h_9 => cases h
  all_goals
    rename_i hop
    obtain ⟨hrsv, hun, rfl⟩ := (accept_ok _ _ _ _).1 h
    have hbits : cwOp cw = BitVec.ofNat 8 (cwOp cw).toNat := by simp
    rw [hop] at hbits
    simp [hrsv, hun, hbits]

/-- A word with the reserved field 0 is the one its fields make. -/
theorem cmd_mkCmd_eq {op : BitVec 8} {idx : BitVec 16} {c : Colour} (hrsv : cwRsv cw = 0#16)
    (hop : cwOp cw = op) (hidx : cwIdx cw = idx) (hc : cwColour cw = c) :
    PortWord.cmd (mkCmd op idx c) = .cmd cw := by
  rw [← hop, ← hidx, ← hc, mkCmd_fields cw hrsv]

/-- The decoded operation of a command word encodes to that word. -/
theorem encode_of_decodeCmd (h : decodeCmd cw = .ok i) : i.wf = true ∧ encode i = .cmd cw := by
  obtain ⟨hrsv, ⟨hop, hu, rfl⟩ | ⟨hop, rfl⟩ | ⟨hop, rfl⟩ | ⟨hop, hu, rfl⟩ | ⟨hop, hu, rfl⟩ |
    ⟨hop, hu, rfl⟩ | ⟨hop, hu, rfl⟩ | ⟨hop, hu, rfl⟩⟩ := decodeCmd_ok_cases h
  · obtain ⟨hidx, hc⟩ := unusedZero_N_iff.1 hu
    exact ⟨rfl, cmd_mkCmd_eq hrsv hop hidx hc⟩
  · obtain ⟨hr, hg, hb⟩ := cw_bytes cw
    refine ⟨indexFits_toNat _, cmd_mkCmd_eq hrsv hop (by simp) ?_⟩
    rw [hr, hg, hb, colour_eq_bytes]
  · exact ⟨indexFits_toNat _, cmd_mkCmd_eq hrsv hop (by simp) rfl⟩
  · exact ⟨rfl, cmd_mkCmd_eq hrsv hop (unusedZero_C_iff.1 hu) rfl⟩
  · obtain ⟨hidx, hc⟩ := unusedZero_N_iff.1 hu
    exact ⟨rfl, cmd_mkCmd_eq hrsv hop hidx hc⟩
  · obtain ⟨hidx, hc⟩ := unusedZero_N_iff.1 hu
    exact ⟨rfl, cmd_mkCmd_eq hrsv hop hidx hc⟩
  · exact ⟨indexFits_toNat _,
      cmd_mkCmd_eq hrsv hop (by simp) (unusedZero_I_iff.1 hu)⟩
  · obtain ⟨hidx, hc⟩ := unusedZero_N_iff.1 hu
    exact ⟨rfl, cmd_mkCmd_eq hrsv hop hidx hc⟩

/-- The `NOTIFY` line means `TC_DONE` at 1 and nothing at 0 (30_encoding.md R94). -/
theorem decodeNotify_ok {line : Line} (h : decodeNotify line = .ok i) : line = 1#1 ∧ i = .tcDone := by
  unfold decodeNotify at h
  split at h
  · exact ⟨‹_›, by simpa using h.symm⟩
  · cases h

/-- Settles O2: a word that decodes has 0 wherever its operation has no operand, so the encoder makes
the same word again. -/
theorem encodeOfDecodeGivesWord : Obligations.EncodeOfDecodeGivesWord := by
  intro pw i h
  cases pw with
  | cmd cw => exact encode_of_decodeCmd h
  | notify line =>
    obtain ⟨rfl, rfl⟩ := decodeNotify_ok h
    exact ⟨rfl, rfl⟩

/-! ### The rows of the opcode table -/

/-- The opcodes and their formats (30_encoding.md R90). -/
def opcodeFormats : List (BitVec 8 × Format) :=
  [(0x01#8, .N), (0x02#8, .IC), (0x03#8, .IC), (0x04#8, .C), (0x05#8, .N), (0x06#8, .N),
    (0x07#8, .I), (0x08#8, .N)]

/-- The mask of a format: the opcode, the reserved field, and the fields that the format leaves
unused. -/
def formatMask : Format → CmdWord
  | .N => 0xFFFFFFFFFFFFFFFF#64
  | .I => 0xFFFFFF0000FFFFFF#64
  | .C => 0xFFFFFFFFFF000000#64
  | .IC => 0xFFFFFF0000000000#64

/-- The row of the opcode table for an opcode and its format. -/
def rowOf (of : BitVec 8 × Format) : OpcodeRow :=
  { pattern := mkCmd of.1 0#16 0#24, mask := formatMask of.2 }

theorem opcodeRows_eq : opcodeRows = opcodeFormats.map rowOf := by decide

/-- A command word is its four fields. -/
theorem eq_append_fields (cw : CmdWord) : cw = cwOp cw ++ cwRsv cw ++ cwIdx cw ++ cwColour cw := by
  unfold cwOp cwRsv cwIdx cwColour
  rw [BitVec.extractLsb'_append_extractLsb'_eq_extractLsb' (by decide : 56 = 40 + 16),
    BitVec.extractLsb'_append_extractLsb'_eq_extractLsb' (by decide : 40 = 24 + 16),
    BitVec.extractLsb'_append_extractLsb'_eq_extractLsb' (by decide : 24 = 0 + 24),
    BitVec.extractLsb'_eq_self]

theorem eq_iff_fields (cw cw' : CmdWord) : cw = cw' ↔ cwOp cw = cwOp cw' ∧ cwRsv cw = cwRsv cw' ∧
    cwIdx cw = cwIdx cw' ∧ cwColour cw = cwColour cw' := by
  constructor
  · rintro rfl
    exact ⟨rfl, rfl, rfl, rfl⟩
  · rintro ⟨hop, hrsv, hidx, hc⟩
    rw [eq_append_fields cw, hop, hrsv, hidx, hc, ← eq_append_fields cw']

/-- The mask of a format keeps the opcode and the reserved field. -/
theorem cwOp_rsv_formatMask (f : Format) :
    cwOp (formatMask f) = BitVec.allOnes 8 ∧ cwRsv (formatMask f) = BitVec.allOnes 16 := by
  cases f <;> decide

/-- Under the mask of a format the unused fields are those that `unusedZero` checks. -/
theorem masked_unused_iff (f : Format) (cw : CmdWord) :
    cwIdx cw &&& cwIdx (formatMask f) = 0#16 ∧ cwColour cw &&& cwColour (formatMask f) = 0#24 ↔
      unusedZero f cw = true := by
  have hidx : cwIdx cw &&& 0xFFFF#16 = cwIdx cw := BitVec.and_allOnes
  have hc : cwColour cw &&& 0xFFFFFF#24 = cwColour cw := BitVec.and_allOnes
  cases f with
  | N =>
    rw [unusedZero_N_iff, show cwIdx (formatMask .N) = 0xFFFF#16 by decide,
      show cwColour (formatMask .N) = 0xFFFFFF#24 by decide, hidx, hc]
  | I =>
    rw [unusedZero_I_iff, show cwIdx (formatMask .I) = 0#16 by decide,
      show cwColour (formatMask .I) = 0xFFFFFF#24 by decide, hc]
    simp
  | C =>
    rw [unusedZero_C_iff, show cwIdx (formatMask .C) = 0xFFFF#16 by decide,
      show cwColour (formatMask .C) = 0#24 by decide, hidx]
    simp
  | IC =>
    rw [show cwIdx (formatMask .IC) = 0#16 by decide,
      show cwColour (formatMask .IC) = 0#24 by decide]
    simp [unusedZero]

/-- A word hits the row of an opcode and its format exactly when it has that opcode and 0 in the
reserved and the unused fields. -/
theorem rowOf_hits_iff (of : BitVec 8 × Format) (cw : CmdWord) : (rowOf of).hits cw = true ↔
    cwOp cw = of.1 ∧ cwRsv cw = 0#16 ∧ unusedZero of.2 cw = true := by
  obtain ⟨op, f⟩ := of
  obtain ⟨hop, hrsv⟩ := cwOp_rsv_formatMask f
  calc (rowOf (op, f)).hits cw = true
    _ ↔ cw &&& formatMask f = mkCmd op 0#16 0#24 := beq_iff_eq
    _ ↔ cwOp cw &&& cwOp (formatMask f) = op ∧ cwRsv cw &&& cwRsv (formatMask f) = 0#16 ∧
          cwIdx cw &&& cwIdx (formatMask f) = 0#16 ∧
          cwColour cw &&& cwColour (formatMask f) = 0#24 := by
      rw [eq_iff_fields, cwOp_mkCmd, cwRsv_mkCmd, cwIdx_mkCmd, cwColour_mkCmd]
      simp only [cwOp, cwRsv, cwIdx, cwColour, BitVec.extractLsb'_and]
    _ ↔ cwOp cw = op ∧ cwRsv cw = 0#16 ∧ unusedZero f cw = true := by
      rw [hop, hrsv, BitVec.and_allOnes, BitVec.and_allOnes, masked_unused_iff]

/-- A command word decodes exactly when its opcode has a format that accepts its fields. -/
theorem decodeCmd_ok_iff_format (cw : CmdWord) : (∃ i, decodeCmd cw = .ok i) ↔
    ∃ of ∈ opcodeFormats, cwOp cw = of.1 ∧ cwRsv cw = 0#16 ∧ unusedZero of.2 cw = true := by
  constructor
  · rintro ⟨i, h⟩
    obtain ⟨hrsv, hcases⟩ := decodeCmd_ok_cases h
    obtain ⟨hop, hu, -⟩ | ⟨hop, -⟩ | ⟨hop, -⟩ | ⟨hop, hu, -⟩ | ⟨hop, hu, -⟩ | ⟨hop, hu, -⟩ |
      ⟨hop, hu, -⟩ | ⟨hop, hu, -⟩ := hcases
    · exact ⟨(0x01#8, .N), by decide, hop, hrsv, hu⟩
    · exact ⟨(0x02#8, .IC), by decide, hop, hrsv, rfl⟩
    · exact ⟨(0x03#8, .IC), by decide, hop, hrsv, rfl⟩
    · exact ⟨(0x04#8, .C), by decide, hop, hrsv, hu⟩
    · exact ⟨(0x05#8, .N), by decide, hop, hrsv, hu⟩
    · exact ⟨(0x06#8, .N), by decide, hop, hrsv, hu⟩
    · exact ⟨(0x07#8, .I), by decide, hop, hrsv, hu⟩
    · exact ⟨(0x08#8, .N), by decide, hop, hrsv, hu⟩
  · rintro ⟨⟨op, f⟩, hmem, hop, hrsv, hu⟩
    have haccept : ∀ i, accept f cw i = .ok i := fun i => (accept_ok _ _ _ _).2 ⟨hrsv, hu, rfl⟩
    simp only [opcodeFormats, List.mem_cons, Prod.mk.injEq, List.not_mem_nil, or_false] at hmem
    obtain ⟨rfl, rfl⟩ | ⟨rfl, rfl⟩ | ⟨rfl, rfl⟩ | ⟨rfl, rfl⟩ | ⟨rfl, rfl⟩ | ⟨rfl, rfl⟩ |
      ⟨rfl, rfl⟩ | ⟨rfl, rfl⟩ := hmem
    all_goals
      simp only [decodeCmd, hop]
      exact ⟨_, haccept _⟩

/-- No opcode has two formats. -/
theorem format_unique : ∀ of ∈ opcodeFormats, ∀ of' ∈ opcodeFormats, of.1 = of'.1 → of = of' := by
  decide

/-- Settles O3: a row is an opcode with its format, and hitting it is what the decoder checks; the
opcode of a word picks the row. -/
theorem decodableWordsAreTheTableRows : Obligations.DecodableWordsAreTheTableRows := by
  intro cw
  rw [decodeCmd_ok_iff_format, opcodeRows_eq]
  simp only [List.mem_map, exists_exists_and_eq_and, forall_exists_index, and_imp,
    forall_apply_eq_imp_iff₂]
  refine ⟨by simp only [rowOf_hits_iff], fun of hof of' hof' hit hit' => ?_⟩
  obtain ⟨hop, -, -⟩ := (rowOf_hits_iff of cw).1 hit
  obtain ⟨hop', -, -⟩ := (rowOf_hits_iff of' cw).1 hit'
  rw [format_unique of hof of' hof' (hop.symm.trans hop')]

/-! ### Words and colours written out -/

/-- Settles O4: the seven words, evaluated. -/
theorem specWordsDecode : Obligations.SpecWordsDecode :=
  ⟨rfl, rfl, rfl, rfl, rfl, rfl, rfl⟩

/-- Settles O7: the three bytes of a colour and their concatenation. -/
theorem packAndUnpackAreInverse : Obligations.PackAndUnpackAreInverse := by
  refine ⟨fun px => ?_, colour_eq_bytes⟩
  obtain ⟨hr, hg, hb⟩ := colour_bytes px.r px.g px.b
  rw [Machine.unpack, Machine.pack, hr, hg, hb]

end Sys2Proof
end

section
/-! PROOFS. What every step keeps: well-formed states (10_state.md R20 to R25). -/

namespace Sys2Proof.Machine

variable {s t : State} {m : Memory}

/-- A predicate that does not read the schedule, the `CFG` port or the start's choice holds after a
step if it holds before it, after the operation that the step runs, and after the DMA engine's turn. -/
theorem step_induction {P : State → Prop} (h : step s = .next t) (hs : P s)
    (hports : ∀ input c b, P { s with input := input, cfgPort := c, tcStart := b })
    (hexec : ∀ i, nextInstr s = some i → P (pastInput s) → exec i (pastInput s) = .next t → P t)
    (hdma : P (pastInput s) → dmaTurn (pastInput s) = .next t → P t) : P t := by
  have hpast : P (pastInput s) := hports s.input.tail s.cfgPort s.tcStart
  obtain ⟨-, -, rfl⟩ | ⟨i, hi, hex⟩ | ⟨-, rfl | ⟨-, hd⟩ | ⟨c, rfl⟩ | ⟨b, rfl⟩⟩ := step_next h
  · exact hs
  · exact hexec i hi hpast hex
  · exact hpast
  · exact hdma hpast hd
  · exact hports s.input.tail c s.tcStart
  · exact hports s.input.tail s.cfgPort (some b)

/-- A started frame as one record update. -/
theorem startFrame_eq (m : Memory) (s : State) : startFrame m s =
    { s with
      txbuf := m
      ready := false
      ccr := 0
      xfer := xferAfterStart (burstLen s) s
      tcTrace := s.tcTrace ++
        [{ chan := s.tcCfg, call := .setPwm 0 },
         { chan := s.tcCfg, call := .startDma .txbuf (burstLen s) .notifyInput .thisInstance }]
      tcStart := none
      draws := s.draws + 1 } := by
  rw [← startFrame_tcTrace s m]
  rfl

/-- `MemRead` gives the word of a slot that exists. -/
theorem txRead_eq_ok {p : Params} {a w : Nat} :
    txRead p m a = .ok w ↔ a < bufLen p ∧ w = Memory.read m a := by
  unfold txRead
  split <;> simp [*, eq_comm]

/-- What `encode_frame` of a well-formed state leaves is canonical and fits the buffer. -/
theorem encodeFrame_wf_fits (hs : s.WF) (hm : encodeFrame s = .ok m) :
    Memory.wf m = true ∧ Memory.fits s.params m = true := by
  obtain ⟨m', hm', hwf, hfits, -⟩ := encodeFrame_of_wf s hs
  obtain rfl : m = m' := by simpa [hm] using hm'
  exact ⟨hwf, hfits⟩

theorem State.WF.with_ports (hs : s.WF) (input : List Event) (c : CfgRecord) (b : Option Bool) :
    State.WF { s with input := input, cfgPort := c, tcStart := b } :=
  { hs with }

/-- `INIT` clamps the count to the registers that exist, and stores `WORD_W`-bit timing values. -/
theorem execInit_keeps_wf (hs : s.WF) (h : execInit s = .next t) : t.WF := by
  obtain ⟨-, rfl⟩ := execInit_next.1 h
  obtain ⟨hperiod, hzero, hone⟩ :=
    (Timing.fits_iff _ _).1 (timingFor_fits s.params.wordW s.cfgPort s.draws)
  exact { hs with
    active_le := Nat.min_le_right _ _
    period_lt := hperiod
    zero_lt := hzero
    one_lt := hone
    txbuf_wf := Memory.zeroBelow_wf _ _ hs.txbuf_wf
    txbuf_fits := Memory.zeroBelow_fits _ _ _ hs.txbuf_fits }

theorem startFrame_keeps_wf (hs : s.WF) (hm : encodeFrame s = .ok m) : (startFrame m s).WF := by
  obtain ⟨hwf, hfits⟩ := encodeFrame_wf_fits hs hm
  rw [startFrame_eq]
  exact { hs with ccr_lt := Nat.two_pow_pos _, txbuf_wf := hwf, txbuf_fits := hfits }

theorem completion_keeps_wf (hs : s.WF) : (completionHandler (enterCompletion s)).WF := by
  rw [completionHandler_eq]
  refine { hs with ccr_lt := ?_ }
  show (if s.params.idleOnDone then 0 else s.ccr) < 2 ^ s.params.wordW
  split
  · exact Nat.two_pow_pos _
  · exact hs.ccr_lt

/-- Every operation keeps the state well formed. -/
theorem exec_keeps_wf {i : Instr} (hs : s.WF) (h : exec i s = .next t) : t.WF := by
  obtain ⟨-, -, hinit⟩ | ⟨-, ⟨-, hx, hlen⟩ | ⟨_, _, -, rfl⟩ | ⟨-, rfl⟩ | ⟨-, -, rfl⟩ |
    ⟨-, -, m, hm, rfl⟩ | ⟨-, rfl⟩⟩ := exec_next_cases h
  · exact execInit_keeps_wf hs hinit
  · rw [hx]
    exact { hs with x_length := hlen.trans hs.x_length }
  · exact { hs with }
  · exact { hs with }
  · exact hs
  · exact startFrame_keeps_wf hs hm
  · exact completion_keeps_wf hs

/-- The engine's turn keeps the state well formed: a `BEAT` moves a word of the buffer to `ccr`. -/
theorem dmaTurn_keeps_wf (hs : s.WF) (h : dmaTurn s = .next t) : t.WF := by
  obtain ⟨rfl, -⟩ | ⟨_, _, w, -, -, hw, rfl⟩ | ⟨_, -, rfl⟩ := dmaTurn_next h
  · exact hs
  · obtain ⟨-, rfl⟩ := txRead_eq_ok.1 hw
    exact { hs with ccr_lt := Memory.read_lt _ _ _ hs.txbuf_fits }
  · exact { hs with }

/-- Settles O46: operation by operation, and for the engine's turn; the other inputs write no field
that `State.WF` reads. -/
theorem stepKeepsStatesWellFormed : Obligations.StepKeepsStatesWellFormed := fun _ _ hs h =>
  step_induction h hs hs.with_ports (fun _ _ hpast hex => exec_keeps_wf hpast hex)
    (fun hpast hd => dmaTurn_keeps_wf hpast hd)

end Sys2Proof.Machine
end

section
/-! PROOFS. What every step inside the Timer Channel's contract keeps: the handshake
(43_handshake_fsm.md R203, 60_exceptions.md R217). -/

namespace Sys2Proof.Machine

variable {s t : State} {m : Memory}

/-- With no burst in flight a start ends in a burst of the given length or in a failed one. -/
theorem xferAfterStart_of_none {len : Nat} (hx : s.xfer = .none) :
    xferAfterStart len s = if startSucceeds s then .active len 0 else .dead := by
  simp [xferAfterStart, hx]

/-- A burst that a start begins has the given length and has moved no word. -/
theorem xferAfterStart_active {len len' pos : Nat} (hx : s.xfer = .none)
    (h : xferAfterStart len s = .active len' pos) : len' = len ∧ pos = 0 := by
  rw [xferAfterStart_of_none hx] at h
  split at h
  · injection h with hlen hpos
    exact ⟨hlen.symm, hpos.symm⟩
  · cases h

/-- A burst in flight means `BUSY`, initialised, and nothing pending. -/
theorem HandshakeOk.of_active (hs : HandshakeOk s) {len pos : Nat} (hx : s.xfer = .active len pos) :
    s.ready = false ∧ s.inited = true ∧ s.notifyPending = false := by
  refine ⟨?_, ?_, ?_⟩
  · cases hr : s.ready with
    | false => rfl
    | true => simp [(hs.ready_idle hr).1] at hx
  · cases hi : s.inited with
    | false => simp [(hs.before_init hi).1] at hx
    | true => rfl
  · cases hn : s.notifyPending with
    | false => rfl
    | true => simp [hs.pending_over hn] at hx

/-- A state with no burst and nothing pending is consistent, whatever the flags. -/
theorem HandshakeOk.of_idle (hx : s.xfer = .none) (hn : s.notifyPending = false) : HandshakeOk s where
  ready_idle _ := ⟨hx, hn⟩
  pending_over _ := hx
  before_init _ := ⟨hx, hn⟩
  burst_bounds len pos hact := by simp [hx] at hact

theorem HandshakeOk.with_ports (hs : HandshakeOk s) (input : List Event) (c : CfgRecord)
    (b : Option Bool) : HandshakeOk { s with input := input, cfgPort := c, tcStart := b } :=
  { hs with }

/-- A `SHOW` taken in `READY` finds no burst and nothing pending, and starts one of length `L`. -/
theorem startFrame_keeps_handshake (hs : HandshakeOk s) (hi : s.inited = true)
    (hr : s.ready = true) : HandshakeOk (startFrame m s) := by
  obtain ⟨hx, hn⟩ := hs.ready_idle hr
  rw [startFrame_eq]
  constructor
  case ready_idle => simp
  case pending_over => simp [hn]
  case before_init => simp [hi]
  case burst_bounds =>
    intro len pos hact
    obtain ⟨rfl, rfl⟩ := xferAfterStart_active hx hact
    exact ⟨Nat.zero_le _, rfl⟩

/-- A delivery that the contract allows finds the burst over, and takes the notification. -/
theorem completion_keeps_handshake (hs : HandshakeOk s) (hn : s.notifyPending = true) :
    HandshakeOk (completionHandler (enterCompletion s)) := by
  rw [completionHandler_eq]
  exact .of_idle (hs.pending_over hn) rfl

/-- Every operation keeps the handshake consistent, `TC_DONE` where a notification is pending. -/
theorem exec_keeps_handshakeOk {i : Instr} (hs : HandshakeOk s)
    (hc : i = .tcDone → s.notifyPending = true) (h : exec i s = .next t) : HandshakeOk t := by
  obtain ⟨-, hi, hinit⟩ | ⟨hi, ⟨-, hx, -⟩ | ⟨_, _, -, rfl⟩ | ⟨-, rfl⟩ | ⟨-, -, rfl⟩ |
    ⟨-, hr, m, -, rfl⟩ | ⟨hdone, rfl⟩⟩ := exec_next_cases h
  · obtain ⟨-, rfl⟩ := execInit_next.1 hinit
    obtain ⟨hx, hn⟩ := hs.before_init hi
    exact .of_idle hx hn
  · rw [hx]
    exact { hs with }
  · exact { hs with }
  · exact { hs with }
  · exact hs
  · exact startFrame_keeps_handshake hs hi hr
  · exact completion_keeps_handshake hs (hc hdone)

/-- The engine's turn keeps the handshake consistent: a burst moves on within its length, or ends and
leaves its notification pending. -/
theorem dmaTurn_keeps_handshakeOk (hs : HandshakeOk s) (h : dmaTurn s = .next t) :
    HandshakeOk t := by
  obtain ⟨rfl, -⟩ | ⟨len, pos, w, hx, hlt, -, rfl⟩ | ⟨len, hx, rfl⟩ := dmaTurn_next h
  · exact hs
  · obtain ⟨hr, hi, hn⟩ := hs.of_active hx
    constructor
    case ready_idle => simp [hr]
    case pending_over => simp [hn]
    case before_init => simp [hi]
    case burst_bounds =>
      rintro _ _ ⟨⟩
      exact ⟨hlt, (hs.burst_bounds len pos hx).2⟩
  · obtain ⟨hr, hi, -⟩ := hs.of_active hx
    rw [finish_eq]
    exact { ready_idle := by simp [hr], pending_over := fun _ => rfl, before_init := by simp [hi],
            burst_bounds := nofun }

/-- Settles O47: operation by operation, and for the engine's turn; the other inputs write no field
that `HandshakeOk` reads. -/
theorem stepKeepsHandshakeConsistent : Obligations.StepKeepsHandshakeConsistent :=
  fun _ _ hs hc h => step_induction h hs hs.with_ports
    (fun _ hi hpast hex => exec_keeps_handshakeOk hpast (fun he => hc (he ▸ hi)) hex)
    (fun hpast hd => dmaTurn_keeps_handshakeOk hpast hd)

end Sys2Proof.Machine
end

section
/-! PROOFS. What every step keeps: the content law of the Transmit Buffer (42_show_encoder.md R164,
R174). -/

namespace Sys2Proof.Machine

variable {s t : State} {m : Memory}

theorem isDataSlot_eq_true {a : Nat} : isDataSlot s a = true ↔
    guardSlots s.params ≤ a ∧ a < guardSlots s.params + 24 * s.activeCount := by
  simp [isDataSlot]

theorem isDataSlot_eq_false {a : Nat} : isDataSlot s a = false ↔
    a < guardSlots s.params ∨ guardSlots s.params + 24 * s.activeCount ≤ a := by
  simp only [isDataSlot, Bool.and_eq_false_iff, decide_eq_false_iff_not, not_le, not_lt]

theorem TxOk.with_ports (hs : TxOk s) (input : List Event) (c : CfgRecord) (b : Option Bool) :
    TxOk { s with input := input, cfgPort := c, tcStart := b } :=
  { hs with }

/-- A buffer of zeros meets the content law. -/
theorem TxOk.of_zero (h : ∀ a, Memory.read s.txbuf a = 0) : TxOk s where
  data_words _ a _ := .inl (h a)
  other_words _ a _ := h a

/-- `INIT` of a well-formed state leaves zeros: it zeroes the slots that exist, and no others are
listed. -/
theorem execInit_txOk (hs : s.WF) (h : execInit s = .next t) : TxOk t := by
  obtain ⟨-, rfl⟩ := execInit_next.1 h
  refine .of_zero fun a => (Memory.read_zeroBelow _ _ a).trans ?_
  split
  · rfl
  · exact Memory.read_beyond s.params _ _ hs.txbuf_fits (by omega)

/-- A slot that is no data slot still holds 0 after the encoding. -/
theorem encodeFrame_other_words (htx : TxOk s) (hi : s.inited = true) (hm : encodeFrame s = .ok m)
    {a : Nat} (ha : isDataSlot s a = false) : Memory.read m a = 0 := by
  rw [encodeFrame_other hm (isDataSlot_eq_false.1 ha), htx.other_words hi a ha]

theorem startFrame_keeps_txOk (hs : s.WF) (htx : TxOk s) (hi : s.inited = true)
    (hm : encodeFrame s = .ok m) : TxOk (startFrame m s) := by
  rw [startFrame_eq]
  exact { data_words := fun _ a ha => .inr (encodeFrame_data_words s hs m hm a ha)
          other_words := fun _ _ ha => encodeFrame_other_words htx hi hm ha }

/-- Every operation keeps the content law. -/
theorem exec_keeps_txOk {i : Instr} (hs : s.WF) (htx : TxOk s) (h : exec i s = .next t) :
    TxOk t := by
  obtain ⟨-, -, hinit⟩ | ⟨hi, ⟨-, hx, -⟩ | ⟨_, _, -, rfl⟩ | ⟨-, rfl⟩ | ⟨-, -, rfl⟩ |
    ⟨-, -, m, hm, rfl⟩ | ⟨-, rfl⟩⟩ := exec_next_cases h
  · exact execInit_txOk hs hinit
  · rw [hx]
    exact { htx with }
  · exact { htx with }
  · exact { htx with }
  · exact htx
  · exact startFrame_keeps_txOk hs htx hi hm
  · rw [completionHandler_eq]
    exact { htx with }

/-- The engine's turn writes nothing that the content law is about. -/
theorem dmaTurn_keeps_txOk (htx : TxOk s) (h : dmaTurn s = .next t) : TxOk t := by
  obtain ⟨rfl, -⟩ | ⟨_, _, _, -, -, -, rfl⟩ | ⟨_, -, rfl⟩ := dmaTurn_next h
  · exact htx
  · exact { htx with }
  · exact { htx with }

/-- Settles O48: operation by operation, and for the engine's turn; the other inputs write no field
that `TxOk` reads. -/
theorem stepKeepsBufferContent : Obligations.StepKeepsBufferContent := fun _ _ hs htx h =>
  step_induction h htx htx.with_ports
    (fun _ _ hpast hex => exec_keeps_txOk (hs.with_ports _ _ _) hpast hex)
    (fun hpast hd => dmaTurn_keeps_txOk hpast hd)

/-- Settles O49: the frame that `SHOW` starts is the encoded one. -/
theorem showFillsDataSlotsWithThresholds : Obligations.ShowFillsDataSlotsWithThresholds := by
  intro s hs htx hi hr
  obtain ⟨m, hm, -⟩ := encodeFrame_of_wf s hs
  refine ⟨startFrame m s, exec_showFrame_of_ready hi hr hm, fun a => ?_⟩
  split
  case isTrue hdata => exact encodeFrame_data_words s hs m hm a (isDataSlot_eq_true.2 hdata)
  case isFalse hother =>
    exact encodeFrame_other_words htx hi hm (isDataSlot_eq_false.2 (by omega))

/-- Settles O45: at reset the block is idle and off, its buffer is empty, and every register holds a
value of its width. -/
theorem resetMeetsTheInvariants : Obligations.ResetMeetsTheInvariants := by
  have hwf : State.reset.WF :=
    { params_wf := by decide
      x_length := by simp [State.reset]
      active_le := Nat.zero_le _
      period_lt := Nat.two_pow_pos _
      zero_lt := Nat.two_pow_pos _
      one_lt := Nat.two_pow_pos _
      ccr_lt := (Config.powerOnCcr Config.params.wordW).isLt
      txbuf_wf := rfl
      txbuf_fits := rfl }
  exact ⟨rfl, rfl, rfl, hwf, .of_idle rfl rfl, .of_zero fun _ => rfl⟩

end Sys2Proof.Machine
end

section
/-! PROOFS. The pixel operations: what `GET` responds, what `FILL` and `CLEAR` leave, and the forms that
expand to others (41_pixel_ops.md, 30_encoding.md section B.7). -/

namespace Sys2Proof.Machine

variable {s t u : State} {px : Pixel}

/-! ### `GET` -/

theorem exec_get_of_active {idx : Nat} (hi : s.inited = true) (hlt : idx < s.activeCount)
    (hpx : pxRead s.x idx = .ok px) :
    exec (.get idx) s = .next (respond (.pixel (pack px)) s) := by
  rw [exec_get_of_inited hi, if_pos hlt, hpx]
  rfl

theorem exec_get_of_inactive {idx : Nat} (hi : s.inited = true) (hle : s.activeCount ≤ idx) :
    exec (.get idx) s = .next (respond (.pixel 0#24) s) := by
  rw [exec_get_of_inited hi, if_neg hle.not_gt]

/-- Every active register of a well-formed state exists. -/
theorem exists_pxRead_of_active (hs : s.WF) {idx : Nat} (hlt : idx < s.activeCount) :
    ∃ px, pxRead s.x idx = .ok px :=
  ⟨_, pxRead_of_lt s.x idx (hs.x_length ▸ lt_of_lt_of_le hlt hs.active_le)⟩

/-- Settles O21: an active register exists and is responded packed; beyond it the response is 0. -/
theorem getRespondsPixelOrZero : Obligations.GetRespondsPixelOrZero := by
  refine fun s idx hs hi => ⟨fun hlt => ?_, exec_get_of_inactive hi⟩
  obtain ⟨px, hpx⟩ := exists_pxRead_of_active hs hlt
  exact ⟨px, hpx, exec_get_of_active hi hlt hpx⟩

/-! ### Runs of instructions -/

theorem runInstrs_append {is : List Instr} (js : List Instr) (h : runInstrs is s = .next t) :
    runInstrs (is ++ js) s = runInstrs js t := by
  induction is generalizing s with
  | nil =>
    obtain rfl : s = t := by simpa [runInstrs] using h
    rfl
  | cons i is ih =>
    simp only [runInstrs] at h
    split at h
    case h_1 v hv =>
      simp only [List.cons_append, runInstrs, hv]
      exact ih h
    case h_2 => cases h
    case h_3 => cases h

theorem runInstrs_singleton {i : Instr} (h : exec i s = .next t) : runInstrs [i] s = .next t := by
  simp [runInstrs, h]

theorem runInstrs_pair {i j : Instr} (hij : exec i s = .next t) (hj : exec j t = .next u) :
    runInstrs [i, j] s = .next u :=
  (runInstrs_append [j] (runInstrs_singleton hij)).trans (runInstrs_singleton hj)

/-! ### Reading back -/

/-- `GET` after an operation that left `px` in register `i` and wrote registers only. -/
theorem get_after_write {w : Instr} {x : List Pixel} {i : Nat} (hi : s.inited = true)
    (hlt : i < s.activeCount) (hw : exec w s = .next { s with x := x }) (hpx : pxRead x i = .ok px) :
    ∃ u, runInstrs [w, .get i] s = .next u ∧ u.rspTrace = s.rspTrace ++ [.pixel (pack px)] := by
  have hget := exec_get_of_active (s := { s with x := x }) hi hlt hpx
  exact ⟨_, runInstrs_pair hw hget, rfl⟩

/-- The register written through an active index. -/
theorem setChannel_of_active {idx : Nat} (hlt : idx < s.activeCount) (hexists : idx < s.x.length)
    (px : Pixel) : setChannel idx px s = .next { s with x := s.x.set idx px } := by
  rw [setChannel, if_pos hlt, pxWrite_of_lt _ _ _ hexists]
  rfl

theorem pack_unpack (c : Colour) : pack (unpack c) = c := packAndUnpackAreInverse.2 c

/-- Settles O22: the written register is active, so the access rule has its colour there. -/
theorem getAfterWriteRespondsWritten : Obligations.GetAfterWriteRespondsWritten := by
  intro s i hs hi hlt
  have hexists : i < s.x.length := hs.x_length ▸ lt_of_lt_of_le hlt hs.active_le
  have hset := setChannel_of_active hlt hexists
  have hread := fun px => pxRead_set_same s.x i px hexists
  refine ⟨fun r g b => ?_, fun c => ?_, fun c => ?_⟩
  · have hback := get_after_write hi hlt ((exec_setRgb_of_inited hi i r g b).trans (hset _)) (hread _)
    rwa [pack] at hback
  · have hback := get_after_write hi hlt ((exec_setPacked_of_inited hi i c).trans (hset _)) (hread _)
    rwa [pack_unpack] at hback
  · obtain ⟨x', hfill, -, hall⟩ := fillWith_of_wf hs (unpack c)
    have hback := get_after_write hi hlt ((exec_fill_of_inited hi c).trans hfill)
      ((hall i).trans (if_pos hlt))
    rwa [pack_unpack] at hback

/-! ### Fills -/

/-- Registers that read the same are the same. -/
theorem eq_of_pxRead_eq {x y : List Pixel} (h : ∀ i, pxRead x i = pxRead y i) : x = y := by
  refine List.ext_getElem?_iff.2 fun i => Option.ext fun px => ?_
  rw [← pxRead_eq_ok, h i, pxRead_eq_ok]

/-- A fill of a well-formed state leaves its pixel in every active register, and a second one finds
nothing to change. -/
theorem fillWith_fills (hs : s.WF) (px : Pixel) : ∃ t, fillWith px s = .next t ∧
    (∀ i, i < s.activeCount → pxRead t.x i = .ok px) ∧ t.inited = s.inited ∧
      fillWith px t = .next t := by
  obtain ⟨x', hfill, hlen, hread⟩ := fillWith_of_wf hs px
  have ht : State.WF { s with x := x' } := { hs with x_length := hlen.trans hs.x_length }
  obtain ⟨x'', hfill', -, hread'⟩ := fillWith_of_wf ht px
  have hsame : x'' = x' := eq_of_pxRead_eq fun i => by
    rw [hread' i, hread i]
    split <;> rfl
  refine ⟨_, hfill, fun i hlt => (hread i).trans (if_pos hlt), rfl, ?_⟩
  rw [hfill', hsame]

/-- Settles O20: `FILL` and `CLEAR` are fills of an initialised block, and it stays initialised. -/
theorem fillAndClearWriteEveryActivePixel : Obligations.FillAndClearWriteEveryActivePixel := by
  refine fun s hs hi => ⟨fun c => ?_, ?_⟩
  · obtain ⟨t, hfill, hread, hinit, hagain⟩ := fillWith_fills hs (unpack c)
    exact ⟨t, (exec_fill_of_inited hi c).trans hfill, hread,
      (exec_fill_of_inited (hinit.trans hi) c).trans hagain⟩
  · obtain ⟨t, hfill, hread, hinit, hagain⟩ := fillWith_fills hs { r := 0#8, g := 0#8, b := 0#8 }
    exact ⟨t, (exec_clear_of_inited hi).trans hfill, hread,
      (exec_clear_of_inited (hinit.trans hi)).trans hagain⟩

/-! ### The expansions -/

/-- The first `n` writes of a fill are the run of `SET_PACKED 0` up to `SET_PACKED n-1`. -/
theorem runInstrs_setPacked_range (hs : s.WF) (hi : s.inited = true) (c : Colour) {n : Nat}
    (hn : n ≤ s.activeCount) : ∃ x', pxWriteAll s.x (unpack c) n = .ok x' ∧
      x'.length = s.x.length ∧
      runInstrs ((List.range n).map fun i => .setPacked i c) s = .next { s with x := x' } := by
  induction n with
  | zero => exact ⟨s.x, rfl, rfl, rfl⟩
  | succ n ih =>
    obtain ⟨x', hall, hlen, hrun⟩ := ih (by omega)
    have hexists : n < x'.length := by
      rw [hlen, hs.x_length]
      exact lt_of_lt_of_le hn hs.active_le
    have hset : exec (.setPacked n c) { s with x := x' } =
        .next { s with x := x'.set n (unpack c) } :=
      (exec_setPacked_of_inited (s := { s with x := x' }) hi n c).trans
        (setChannel_of_active (s := { s with x := x' }) hn hexists _)
    refine ⟨x'.set n (unpack c), ?_, by simp [hlen], ?_⟩
    · simp only [pxWriteAll, hall, pxWrite_of_lt _ _ _ hexists]
    · rw [List.range_succ, List.map_append, runInstrs_append _ hrun]
      exact runInstrs_singleton hset

theorem exec_fill_eq_runInstrs (hs : s.WF) (hi : s.inited = true) (c : Colour) : exec (.fill c) s =
    runInstrs ((List.range s.activeCount).map fun i => .setPacked i c) s := by
  obtain ⟨x', hall, -, hrun⟩ := runInstrs_setPacked_range hs hi c le_rfl
  rw [exec_fill_of_inited hi, hrun, fillWith, hall]
  rfl

theorem unpack_zero : unpack 0#24 = { r := 0#8, g := 0#8, b := 0#8 } := by decide

/-- Settles O19: `SET_PACKED` unpacks its colour, `FILL` writes register by register, and the colour
of `CLEAR` is the unpacked 0. -/
theorem convenienceFormsAreExpansions : Obligations.ConvenienceFormsAreExpansions := by
  refine ⟨fun _ _ _ => rfl, fun s c hs hi => exec_fill_eq_runInstrs hs hi c, fun s => ?_⟩
  show execClear s = execFill 0#24 s
  rw [execFill, unpack_zero, execClear]

end Sys2Proof.Machine
end

section
/-! PROOFS. What a step does, input by input: the operations (30_encoding.md section B), the inputs that
run none, and the DMA engine's turn (60_exceptions.md R227). -/

namespace Sys2Proof.Machine

variable {s t : State} {rest : List Event} {cw : CmdWord} {i : Instr}

/-! ### The input decides -/

theorem step_of_nil (h : s.input = []) : step s = .next s := by
  simp [step, runInput, h]

theorem step_of_cons {e : Event} (h : s.input = e :: rest) :
    step s = runEvent e { s with input := rest } := by
  simp [step, runInput, h]

theorem step_of_dma (h : s.input = .dma :: rest) : step s = dmaTurn { s with input := rest } :=
  step_of_cons h

theorem runPort_of_decode {pw : PortWord} (h : decode pw = .ok i) : runPort pw s = exec i s := by
  simp [runPort, h]

theorem runNotify_high : runNotify 1#1 s = exec .tcDone s :=
  (if_neg (by decide)).trans (runPort_of_decode (pw := .notify 1#1) rfl)

theorem step_of_command (hin : s.input = .command .main cw :: rest) (hd : decodeCmd cw = .ok i) :
    step s = exec i { s with input := rest } :=
  (step_of_cons hin).trans (runPort_of_decode hd)

/-- A port word that decodes runs its operation, on either port. -/
theorem runEvent_eventOf {pw : PortWord} (h : decode pw = .ok i) :
    runEvent (eventOf pw) s = exec i s := by
  cases pw with
  | cmd cw => exact runPort_of_decode h
  | notify line =>
    obtain ⟨rfl, rfl⟩ := decodeNotify_ok h
    exact runNotify_high

theorem decode_of_decodeTableWord {nbits w : Nat} (h : decodeTableWord nbits w = some i) :
    decode (tablePortWord nbits w) = .ok i := by
  unfold decodeTableWord at h
  split at h
  case h_1 j hj => rwa [Option.some.inj h] at hj
  case h_2 => cases h

/-- Settles O5: the next input leaves the schedule and its port word runs the decoded operation. -/
theorem stepRunsDecodedInstruction : Obligations.StepRunsDecodedInstruction :=
  ⟨fun _ _ _ _ hin hd => step_of_command hin hd,
    fun _ _ hin => (step_of_cons hin).trans runNotify_high,
    fun _ _ _ _ h => (step_of_cons rfl).trans (runEvent_eventOf (decode_of_decodeTableWord h))⟩

/-- Settles O6: each input is the head of the schedule, and what it does is in its own arm. -/
theorem otherInputsDoOnlyTheirOwn : Obligations.OtherInputsDoOnlyTheirOwn := by
  refine ⟨fun s cw rest e hin hd => ?_, fun _ _ _ hin => step_of_cons hin,
    fun _ _ hin => step_of_cons hin, fun _ _ _ hin => step_of_cons hin,
    fun _ _ _ hin => step_of_cons hin, fun _ => step_of_nil⟩
  rw [step_of_cons hin]
  simp [runEvent, runCommand, runPort, decode, hd]

/-! ### The lifecycle flag, `STATUS` and the completion -/

theorem exec_of_not_inited (hne : i ≠ .init) (hoff : s.inited = false) :
    exec i s = .refused .notInited := by
  cases i with
  | init => exact absurd rfl hne
  | setRgb | setPacked | fill | clear | showFrame | get | status | tcDone =>
    exact whenInited_of_not s _ hoff

/-- Settles O8: every operation but `INIT` asks for the flag, and `INIT` for its absence. -/
theorem lifecycleRefusals : Obligations.LifecycleRefusals :=
  ⟨fun _ _ hne hoff => exec_of_not_inited hne hoff, fun _ hi => exec_init_of_inited hi⟩

/-- Settles O31: the handler as one record update, for either value of `IDLE_ON_DONE`. -/
theorem completionHandlerSetsReady : Obligations.CompletionHandlerSetsReady := by
  refine ⟨fun s hi hidle => ?_, fun s hi hidle => ?_, fun s hoff => exec_of_not_inited nofun hoff⟩
  · refine execTcDone_next.2 ⟨hi, ?_⟩
    simp [completionHandler_eq, hidle]
  · refine execTcDone_next.2 ⟨hi, ?_⟩
    simp [completionHandler_eq, hidle]

/-- Settles O32: `STATUS` responds its bit and writes nothing. -/
theorem statusRespondsReadiness : Obligations.StatusRespondsReadiness :=
  fun _ hi => execStatus_next.2 ⟨hi, rfl⟩

/-! ### The DMA engine's turn -/

theorem beat_of_lt {len pos : Nat} (h : pos < bufLen s.params) : beat len pos s =
    .next { s with ccr := Memory.read s.txbuf pos, xfer := .active len (pos + 1) } := by
  rw [beat, txRead_eq_ok.2 ⟨h, rfl⟩]
  rfl

theorem dmaTurn_of_lt {len pos : Nat} (hx : s.xfer = .active len pos) (hlt : pos < len)
    (hbuf : pos < bufLen s.params) : dmaTurn s =
    .next { s with ccr := Memory.read s.txbuf pos, xfer := .active len (pos + 1) } := by
  simp only [dmaTurn, hx, if_pos hlt]
  exact beat_of_lt hbuf

theorem dmaTurn_of_end {len : Nat} (hx : s.xfer = .active len len) :
    dmaTurn s = .next (finish s) := by
  simp [dmaTurn, hx]

theorem dmaTurn_of_none (hx : s.xfer = .none) : dmaTurn s = .next s := by
  simp [dmaTurn, hx]

theorem dmaTurn_of_beyond {len pos : Nat} (hx : s.xfer = .active len pos) (h : len < pos) :
    dmaTurn s = .next s := by
  simp [dmaTurn, hx, h.not_gt, h.ne']

/-- With no burst, a failed one, or one past its end, the engine has no step. -/
theorem dmaTurn_of_no_step (h : ∀ len pos, s.xfer = .active len pos → len < pos) :
    dmaTurn s = .next s := by
  cases hx : s.xfer with
  | none => exact dmaTurn_of_none hx
  | dead => exact dmaTurn_of_dead hx
  | active len pos => exact dmaTurn_of_beyond hx (h len pos hx)

/-- `s` with the burst at a position, the word last moved, and the inputs still to come. -/
def burstAt (s : State) (input : List Event) (w len pos : Nat) : State :=
  { s with input := input, ccr := w, xfer := .active len pos }

/-- A `BEAT` inside the buffer, as a step. -/
theorem step_of_beat {len pos : Nat} (hin : s.input = .dma :: rest)
    (hx : s.xfer = .active len pos) (hlt : pos < len) (hbuf : len ≤ bufLen s.params) :
    step s = .next (burstAt s rest (Memory.read s.txbuf pos) len (pos + 1)) :=
  (step_of_dma hin).trans
    (dmaTurn_of_lt (s := { s with input := rest }) hx hlt (lt_of_lt_of_le hlt hbuf))

/-- `FINISH`, as a step. -/
theorem step_of_finish {len : Nat} (hin : s.input = .dma :: rest) (hx : s.xfer = .active len len) :
    step s = .next (finish { s with input := rest }) :=
  (step_of_dma hin).trans (dmaTurn_of_end (s := { s with input := rest }) hx)

/-- A turn without a burst that can move, as a step. -/
theorem step_of_idle_dma (hin : s.input = .dma :: rest) (hx : s.xfer = .none ∨ s.xfer = .dead) :
    step s = .next { s with input := rest } := by
  rw [step_of_dma hin]
  obtain hx | hx := hx
  · exact dmaTurn_of_none (s := { s with input := rest }) hx
  · exact dmaTurn_of_dead (s := { s with input := rest }) hx

/-- Settles O40: the three turns, each as a step. -/
theorem dmaTurnTakesTheEnabledStep : Obligations.DmaTurnTakesTheEnabledStep := fun _ _ hin =>
  ⟨fun _ _ hx hlt hbuf => step_of_beat hin hx hlt hbuf, fun _ hx => step_of_finish hin hx,
    step_of_idle_dma hin⟩

theorem quiescent_iff : quiescent s = true ↔
    s.inited = true ∧ s.ready = true ∧ s.xfer = .none ∧ s.notifyPending = false := by
  simp [quiescent, and_assoc]

theorem runOver_iff : runOver s = true ↔ s.input = [] ∧ quiescent s = true := by
  simp [runOver]

/-- Settles O52: a run that is over has no input left, and a quiescent block has no burst. -/
theorem quiescentMeansNoExternalStep : Obligations.QuiescentMeansNoExternalStep := by
  refine ⟨fun s h => step_of_nil (runOver_iff.1 h).1, fun s rest hq hin => ?_⟩
  obtain ⟨-, -, hx, -⟩ := quiescent_iff.1 hq
  exact step_of_idle_dma hin (.inl hx)

/-- A burst of length `L` lies inside the buffer. -/
theorem burstLen_le_bufLen (hs : s.WF) : burstLen s ≤ bufLen s.params := by
  have := hs.active_le
  unfold burstLen bufLen
  omega

/-- The slot after the data slots is the last of a guarded burst. -/
theorem isDataSlot_last_of_guard (hg : s.params.guard = true) {pos : Nat}
    (hlast : pos + 1 = burstLen s) : isDataSlot s pos = false := by
  rw [isDataSlot_eq_false]
  simp only [burstLen, guardSlots, hg, if_true] at hlast ⊢
  omega

/-- Settles O44: with guard slots the last word of a burst is the trailing guard's, which is 0. -/
theorem guardedBurstEndsIdle : Obligations.GuardedBurstEndsIdle := by
  intro s t pos hs htx hi hg hin hx hlast h
  obtain ⟨rest, hin⟩ := List.head?_eq_some_iff.1 hin
  rw [step_of_beat hin hx (by omega) (burstLen_le_bufLen hs)] at h
  cases h
  exact htx.other_words hi pos (isDataSlot_last_of_guard hg hlast)

/-! ### No fault -/

/-- A fault of a step is one of the operation it runs, or of the engine's turn. -/
theorem step_fault {f : Fault} (h : step s = .fault f) :
    (∃ i, exec i (pastInput s) = .fault f) ∨ dmaTurn (pastInput s) = .fault f := by
  cases hin : s.input with
  | nil =>
    rw [step_of_nil hin] at h
    cases h
  | cons e rest =>
    have hpast : { s with input := rest } = pastInput s := by simp [pastInput, hin]
    rw [step_of_cons hin, hpast] at h
    have hport : ∀ pw, runPort pw (pastInput s) = .fault f →
        ∃ i, exec i (pastInput s) = .fault f := by
      intro pw hpw
      unfold runPort at hpw
      split at hpw
      · exact ⟨_, hpw⟩
      · cases hpw
    cases e with
    | command ctx cw =>
      cases ctx with
      | main => exact .inl (hport _ h)
      | completion => cases h
    | notify line =>
      simp only [runEvent, runNotify] at h
      split at h
      · cases h
      · exact .inl (hport _ h)
    | dma => exact .inr h
    | present c => cases h
    | chooseStart b => cases h

theorem exec_ne_fault (hs : s.WF) (f : Fault) : exec i s ≠ .fault f := by
  intro h
  cases hi : s.inited with
  | false =>
    by_cases hne : i = .init
    · obtain ⟨t, hex, -⟩ := exec_init_of_not_inited hi
      rw [hne, hex] at h
      cases h
    · rw [exec_of_not_inited hne hi] at h
      cases h
  | true =>
    by_cases hne : i = .init
    · rw [hne, exec_init_of_inited hi] at h
      cases h
    · obtain ⟨t, hex⟩ := exec_completes_of_inited hs hi hne
      rw [hex] at h
      cases h

/-- The engine's turn completes where the burst lies inside the buffer. -/
theorem dmaTurn_completes (hbuf : ∀ len pos, s.xfer = .active len pos → len ≤ bufLen s.params) :
    ∃ t, dmaTurn s = .next t := by
  cases hx : s.xfer with
  | none => exact ⟨_, dmaTurn_of_none hx⟩
  | dead => exact ⟨_, dmaTurn_of_dead hx⟩
  | active len pos =>
    obtain hlt | rfl | hgt := lt_trichotomy pos len
    · exact ⟨_, dmaTurn_of_lt hx hlt (lt_of_lt_of_le hlt (hbuf len pos hx))⟩
    · exact ⟨_, dmaTurn_of_end hx⟩
    · exact ⟨_, dmaTurn_of_beyond hx hgt⟩

/-- Settles O50: an operation of a well-formed state completes or is refused, and a burst of a
consistent handshake lies inside the buffer. -/
theorem noStepFaults : Obligations.NoStepFaults := by
  intro s hs hh f h
  obtain ⟨i, hex⟩ | hd := step_fault h
  · exact exec_ne_fault (hs.with_ports s.input.tail s.cfgPort s.tcStart) f hex
  · obtain ⟨t, hnext⟩ := dmaTurn_completes (s := pastInput s) fun len pos hx =>
      (hh.burst_bounds len pos hx).2 ▸ burstLen_le_bufLen hs
    rw [hnext] at hd
    cases hd

/-! ### The slots -/

/-- Settles O30: a slot is the sum of the digits of the mixed radix (24, 8, 1), from `GUARD` on. -/
theorem slotsAreDistinctAndInRange : Obligations.SlotsAreDistinctAndInRange := by
  refine ⟨fun p i j f e b d h => ?_, fun p n a => ⟨fun h => ?_, ?_⟩, fun p i f b h => ?_⟩
  · simp only [slot] at h
    exact ⟨by omega, Fin.ext (by omega), Fin.ext (by omega)⟩
  · refine ⟨(a - guardSlots p) / 24, ⟨(a - guardSlots p) % 24 / 8, by omega⟩,
      ⟨7 - (a - guardSlots p) % 8, by omega⟩, by omega, ?_⟩
    simp only [slot]
    omega
  · rintro ⟨i, f, b, hi, rfl⟩
    simp only [slot]
    omega
  · simp only [slot, bufLen]
    omega

end Sys2Proof.Machine
end

section
/-! PROOFS. Pixel values stay in the frame: two machines that differ only in data step together
(00_scope.md section 2, 41_pixel_ops.md, 42_show_encoder.md). -/

namespace Sys2Proof.Machine

/-! ### Whether an access goes through depends on lengths only -/

theorem pxRead_lt_length {x : List Pixel} {i : Nat} {px : Pixel} (h : pxRead x i = .ok px) :
    i < x.length :=
  (List.getElem?_eq_some_iff.1 ((pxRead_eq_ok _ _ _).1 h)).1

theorem pxWriteAll_le_length {x x' : List Pixel} {px : Pixel} {n : Nat}
    (h : pxWriteAll x px n = .ok x') : n ≤ x.length := by
  induction n generalizing x' with
  | zero => exact Nat.zero_le _
  | succ n ih =>
    simp only [pxWriteAll] at h
    split at h
    · rename_i y hy
      unfold pxWrite at h
      split at h
      case isTrue hlt => rwa [pxWriteAll_length x y px n hy] at hlt
      case isFalse => cases h
    · cases h

theorem pxReadAll_le_length {x ps : List Pixel} {n : Nat} (h : pxReadAll x n = .ok ps) :
    n ≤ x.length := by
  induction n generalizing ps with
  | zero => exact Nat.zero_le _
  | succ n ih =>
    simp only [pxReadAll] at h
    split at h
    · split at h
      · rename_i hread
        exact pxRead_lt_length hread
      · cases h
    · cases h

/-- A run of `MemWrite`s that goes through does so with other words and over another buffer. -/
theorem txWriteFrom_ok_of_length_eq {p : Params} {vs vs' : List Nat} {m m' n : Memory} {wp : Nat}
    (hlen : vs'.length = vs.length) (h : txWriteFrom p m wp vs = .ok n) :
    ∃ n', txWriteFrom p m' wp vs' = .ok n' := by
  induction vs generalizing vs' m m' wp with
  | nil =>
    obtain rfl := List.length_eq_zero_iff.1 hlen
    exact ⟨m', rfl⟩
  | cons v vs ih =>
    obtain ⟨v', vs', rfl⟩ := List.exists_cons_of_length_eq_add_one hlen
    have hlen' : vs'.length = vs.length := by simpa using hlen
    by_cases hwp : wp < bufLen p
    · simp only [txWriteFrom, txWrite, if_pos hwp] at h ⊢
      exact ih hlen' h
    · simp [txWriteFrom, txWrite, hwp] at h

/-! ### Pairs of states -/

variable {s s' t : State}

/-- The other state of a pair is the one with its own data. -/
theorem SameButPixels.eq_with_data (h : SameButPixels s s') : ∃ x m c rs,
    x.length = s.x.length ∧ s' = { s with x := x, txbuf := m, ccr := c, rspTrace := rs } :=
  ⟨_, _, _, _, h.same_length.symm, h.same_rest⟩

theorem SameButPixels.params_eq (h : SameButPixels s s') : s'.params = s.params := by
  rw [h.same_rest]

theorem SameButPixels.xfer_eq (h : SameButPixels s s') : s'.xfer = s.xfer := by
  rw [h.same_rest]

theorem SameButPixels.input_eq (h : SameButPixels s s') : s'.input = s.input := by
  rw [h.same_rest]

theorem SameButPixels.with_input (h : SameButPixels s s') (input : List Event) :
    SameButPixels { s with input := input } { s' with input := input } := by
  obtain ⟨x, m, c, rs, hlen, rfl⟩ := h.eq_with_data
  exact ⟨hlen.symm, rfl⟩

/-- Whether `f` goes on does not depend on data, nor does what it leaves, data apart. -/
def BlindToPixels (f : State → Result) : Prop :=
  ∀ s s' t, SameButPixels s s' → f s = .next t → ∃ t', f s' = .next t' ∧ SameButPixels t t'

theorem blind_whenInited {f : State → Result} (hf : BlindToPixels f) :
    BlindToPixels fun s => whenInited s (f s) := by
  intro s s' t h hst
  obtain ⟨hi, hst⟩ := whenInited_next s hst
  obtain ⟨t', hst', ht⟩ := hf s s' t h hst
  have hi' : s'.inited = true := by rw [h.same_rest]; exact hi
  exact ⟨t', (whenInited_of_inited s' _ hi').trans hst', ht⟩

/-! ### The operations -/

theorem blind_setChannel (idx : Nat) (px : Pixel) : BlindToPixels (setChannel idx px) := by
  intro s s' t h hst
  obtain ⟨x, m, c, rs, hlen, rfl⟩ := h.eq_with_data
  obtain ⟨hle, rfl⟩ | ⟨hlt, hexists, rfl⟩ := setChannel_next hst
  · exact ⟨_, if_neg hle.not_gt, h⟩
  · refine ⟨{ s with x := x.set idx px, txbuf := m, ccr := c, rspTrace := rs }, ?_, ?_⟩
    · exact setChannel_of_active (s := { s with x := x, txbuf := m, ccr := c, rspTrace := rs }) hlt
        (hlen ▸ hexists) px
    · exact ⟨by simp [hlen], rfl⟩

theorem blind_fillWith (px : Pixel) : BlindToPixels (fillWith px) := by
  intro s s' t h hst
  obtain ⟨x, m, c, rs, hlen, rfl⟩ := h.eq_with_data
  obtain ⟨y, hy, rfl⟩ := fillWith_next hst
  obtain ⟨y', hy', hlen', -⟩ := pxWriteAll_ok x px s.activeCount (hlen ▸ pxWriteAll_le_length hy)
  refine ⟨{ s with x := y', txbuf := m, ccr := c, rspTrace := rs }, ?_, ?_, rfl⟩
  · rw [fillWith, hy']
    rfl
  · exact (pxWriteAll_length _ _ _ _ hy).trans (hlen.symm.trans hlen'.symm)

/-- `GET`: the response carries the pixel, and whether there is one depends on the index only. -/
theorem blind_execGet (idx : Nat) : BlindToPixels (execGet idx) := by
  intro s s' t h hst
  obtain ⟨x, m, c, rs, hlen, rfl⟩ := h.eq_with_data
  obtain ⟨hi, ⟨hlt, px, hpx, rfl⟩ | ⟨hle, rfl⟩⟩ := execGet_next hst
  · have hexists : idx < x.length := hlen ▸ pxRead_lt_length hpx
    have hget := exec_get_of_active (s := { s with x := x, txbuf := m, ccr := c, rspTrace := rs })
      hi hlt (pxRead_of_lt x idx hexists)
    exact ⟨_, hget, hlen.symm, rfl⟩
  · have hget := exec_get_of_inactive
      (s := { s with x := x, txbuf := m, ccr := c, rspTrace := rs }) hi hle
    exact ⟨_, hget, hlen.symm, rfl⟩

/-- The encoding reaches its end by the number of registers and slots alone. -/
theorem encodeFrame_ok_of_same (h : SameButPixels s s') {n : Memory} (hn : encodeFrame s = .ok n) :
    ∃ n', encodeFrame s' = .ok n' := by
  obtain ⟨x, m, c, rs, hlen, rfl⟩ := h.eq_with_data
  unfold encodeFrame at hn ⊢
  split at hn
  case h_1 ps hps =>
    have hread := pxReadAll_ok x s.activeCount (hlen ▸ pxReadAll_le_length hps)
    simp only [hread]
    refine txWriteFrom_ok_of_length_eq ?_ hn
    rw [frameWords_length, frameWords_length, pxReadAll_length _ _ _ hread,
      pxReadAll_length _ _ _ hps]
  case h_2 => cases hn

theorem blind_execShow : BlindToPixels execShow := by
  intro s s' t h hst
  obtain ⟨hi, ⟨hr, rfl⟩ | ⟨hr, n, hn, rfl⟩⟩ := execShow_next hst
  · obtain ⟨x, m, c, rs, hlen, rfl⟩ := h.eq_with_data
    exact ⟨_, exec_showFrame_of_busy hi hr, h⟩
  · obtain ⟨n', hn'⟩ := encodeFrame_ok_of_same h hn
    obtain ⟨x, m, c, rs, hlen, rfl⟩ := h.eq_with_data
    refine ⟨_, exec_showFrame_of_ready hi hr hn', ?_⟩
    rw [startFrame_eq, startFrame_eq]
    exact ⟨hlen.symm, rfl⟩

/-- `INIT` reads the record and the draw counter, which are no data. -/
theorem blind_execInit : BlindToPixels execInit := by
  intro s s' t h hst
  obtain ⟨x, m, c, rs, hlen, rfl⟩ := h.eq_with_data
  obtain ⟨hi, rfl⟩ := execInit_next.1 hst
  exact ⟨_, execInit_next.2 ⟨hi, rfl⟩, hlen.symm, rfl⟩

theorem blind_execStatus : BlindToPixels execStatus := by
  intro s s' t h hst
  obtain ⟨x, m, c, rs, hlen, rfl⟩ := h.eq_with_data
  obtain ⟨hi, rfl⟩ := execStatus_next.1 hst
  exact ⟨_, execStatus_next.2 ⟨hi, rfl⟩, hlen.symm, rfl⟩

theorem blind_execTcDone : BlindToPixels execTcDone := by
  intro s s' t h hst
  obtain ⟨x, m, c, rs, hlen, rfl⟩ := h.eq_with_data
  obtain ⟨hi, rfl⟩ := execTcDone_next.1 hst
  refine ⟨_, execTcDone_next.2 ⟨hi, rfl⟩, ?_⟩
  rw [completionHandler_eq, completionHandler_eq]
  exact ⟨hlen.symm, rfl⟩

theorem blind_exec (i : Instr) : BlindToPixels (exec i) := by
  cases i with
  | init => exact blind_execInit
  | setRgb idx r g b => exact blind_whenInited (blind_setChannel idx _)
  | setPacked idx c => exact blind_whenInited (blind_setChannel idx _)
  | fill c => exact blind_whenInited (blind_fillWith _)
  | clear => exact blind_whenInited (blind_fillWith _)
  | showFrame => exact blind_execShow
  | get idx => exact blind_execGet idx
  | status => exact blind_execStatus
  | tcDone => exact blind_execTcDone

/-! ### The engine's turn and the step -/

/-- The engine's turn moves a word to `ccr` or nothing; which, the burst says. -/
theorem blind_dmaTurn : BlindToPixels dmaTurn := by
  intro s s' t h hst
  have hx' := h.xfer_eq
  obtain ⟨rfl, hno⟩ | ⟨len, pos, w, hx, hlt, hw, rfl⟩ | ⟨len, hx, rfl⟩ := dmaTurn_next hst
  · exact ⟨s', dmaTurn_of_no_step (hx' ▸ hno), h⟩
  · have hbuf : pos < bufLen s'.params := h.params_eq ▸ (txRead_eq_ok.1 hw).1
    refine ⟨_, dmaTurn_of_lt (hx'.trans hx) hlt hbuf, h.same_length, ?_⟩
    rw [h.same_rest]
  · refine ⟨_, dmaTurn_of_end (hx'.trans hx), h.same_length, ?_⟩
    rw [h.same_rest]
    rfl

theorem blind_runPort (pw : PortWord) : BlindToPixels (runPort pw) := by
  intro s s' t h hst
  unfold runPort at hst ⊢
  split at hst
  case h_1 i hi => exact blind_exec i s s' t h hst
  case h_2 => cases hst

theorem blind_runEvent (e : Event) : BlindToPixels (runEvent e) := by
  cases e with
  | command ctx cw =>
    cases ctx with
    | main => exact blind_runPort (.cmd cw)
    | completion =>
      intro s s' t h hst
      cases hst
  | notify line =>
    intro s s' t h hst
    by_cases hl : line = 0#1
    · obtain rfl : s = t := by simpa [runEvent, runNotify, hl] using hst
      exact ⟨s', if_pos hl, h⟩
    · obtain ⟨t', hst', ht⟩ := blind_runPort (.notify line) s s' t h ((if_neg hl).symm.trans hst)
      exact ⟨t', (if_neg hl).trans hst', ht⟩
  | dma => exact blind_dmaTurn
  | present c =>
    rintro s s' _ h ⟨⟩
    obtain ⟨x, m, c, rs, hlen, rfl⟩ := h.eq_with_data
    exact ⟨_, rfl, hlen.symm, rfl⟩
  | chooseStart b =>
    rintro s s' _ h ⟨⟩
    obtain ⟨x, m, c, rs, hlen, rfl⟩ := h.eq_with_data
    exact ⟨_, rfl, hlen.symm, rfl⟩

/-- Settles O51: the two machines take the same input, and every input is blind to pixels. -/
theorem pixelValuesStayInTheFrame : Obligations.PixelValuesStayInTheFrame := by
  intro s s' t h hst
  cases hin : s.input with
  | nil =>
    rw [step_of_nil hin] at hst
    cases hst
    exact ⟨s', step_of_nil (h.input_eq.trans hin), h⟩
  | cons e rest =>
    rw [step_of_cons hin] at hst
    rw [step_of_cons (h.input_eq.trans hin)]
    exact blind_runEvent e _ _ t (h.with_input rest) hst

end Sys2Proof.Machine
end

section
/-! PROOFS. The symbol-rate period calculator and what `INIT` writes (40_init_timing.md). -/

namespace Sys2Proof.Machine

variable {s : State} {w : Nat} {c : CfgRecord}

/-! ### `INIT` -/

/-- Settles O9: `INIT` as one record update, with the zeroed buffer read slot by slot. -/
theorem initEstablishesInitialState : Obligations.InitEstablishesInitialState := fun _ hi =>
  ⟨_, execInit_next.2 ⟨hi, rfl⟩, rfl, rfl, rfl, rfl, rfl, fun a => Memory.read_zeroBelow _ _ a, rfl⟩

/-- `INIT` goes on `READY` with the timing registers that `timingFor` gives. -/
theorem exec_init_timing (hi : s.inited = false) : ∃ t, exec .init s = .next t ∧ t.ready = true ∧
    ({ period := t.period, zero := t.zeroThreshold, one := t.oneThreshold } : Timing) =
      timingFor s.params.wordW s.cfgPort s.draws :=
  ⟨_, execInit_next.2 ⟨hi, rfl⟩, rfl, rfl⟩

theorem timingFor_of_derive {t : Timing} {k : Nat} (h : derive w c = some t) :
    timingFor w c k = t := by
  simp [timingFor, h]

/-- Where the calculator has a result, `INIT` writes it. -/
theorem exec_init_of_derive {tm : Timing} (hi : s.inited = false)
    (h : derive s.params.wordW s.cfgPort = some tm) : ∃ t, exec .init s = .next t ∧
      t.period = tm.period ∧ t.zeroThreshold = tm.zero ∧ t.oneThreshold = tm.one := by
  obtain ⟨t, hex, -, htm⟩ := exec_init_timing hi
  rw [timingFor_of_derive h] at htm
  subst htm
  exact ⟨t, hex, rfl, rfl, rfl⟩

/-- The calculator's result, from the form and the number of ticks in a symbol. -/
theorem derive_of_ticks {form : TimingForm} {q : Nat} (hform : c.timing = form)
    (hpresc : 1 ≤ c.prescDiv) (hdiv : divisorsOk form = true) (hq : q = symbolTicks (tickHz c) form)
    (hq1 : 1 ≤ q) (hfits : (timingOf q form).fits w = true) :
    derive w c = some (timingOf q form) := by
  subst hform hq
  exact (derive_eq_some w c _).2 ⟨hpresc, hdiv, hq1, hfits, rfl⟩

/-- Settles O12: the calculator's result on a form A record. -/
theorem fractionRecordGivesTheseRegisters : Obligations.FractionRecordGivesTheseRegisters := by
  intro s fSym zNum zDen oNum oDen q hi hform hpresc hf hz ho hq hq1 hperiod hzero hone
  refine exec_init_of_derive hi (derive_of_ticks hform hpresc ?_ hq hq1 ?_)
  · simp [divisorsOk, hf, hz, ho]
  · exact (Timing.fits_iff _ _).2 ⟨hperiod, hzero, hone⟩

/-- Settles O13: the calculator's result on a form B record. -/
theorem durationRecordGivesTheseRegisters : Obligations.DurationRecordGivesTheseRegisters := by
  intro s tSym t0h t1h q hi hform hpresc ht hq hq1 hperiod hzero hone
  refine exec_init_of_derive hi (derive_of_ticks hform hpresc ?_ hq hq1 ?_)
  · simp [divisorsOk, ht]
  · exact (Timing.fits_iff _ _).2 ⟨hperiod, hzero, hone⟩

/-- A `WORD_W`-bit value is the value of a word. -/
theorem exists_word_of_lt {v : Nat} (h : v < 2 ^ w) : ∃ b : BitVec w, v = b.toNat :=
  ⟨BitVec.ofNatLT v h, rfl⟩

/-- Settles O14: whether the calculator has a result or the values are drawn, they have `WORD_W`
bits. -/
theorem misconfiguredInitStillCompletes : Obligations.MisconfiguredInitStillCompletes := by
  intro s q hi _ _
  obtain ⟨t, hex, hready, htm⟩ := exec_init_timing hi
  have hfits := timingFor_fits s.params.wordW s.cfgPort s.draws
  rw [← htm, Timing.fits_iff] at hfits
  obtain ⟨hperiod, hzero, hone⟩ := hfits
  exact ⟨t, hex, hready, exists_word_of_lt hperiod, exists_word_of_lt hzero, exists_word_of_lt hone⟩

/-! ### The two forms -/

/-- Equal fractions round to equal thresholds. -/
theorem roundFraction_eq_of_cross {n d n' d' : Nat} (period : Nat) (hd : 1 ≤ d) (hd' : 1 ≤ d')
    (h : n * d' = n' * d) : roundFraction period (n, d) = roundFraction period (n', d') := by
  have hnum : (2 * period * n + d) * d' = (2 * period * n' + d') * d := by
    calc (2 * period * n + d) * d'
      _ = 2 * period * (n * d') + d * d' := by ring
      _ = 2 * period * (n' * d) + d * d' := by rw [h]
      _ = (2 * period * n' + d') * d := by ring
  calc (2 * period * n + d) / (2 * d)
    _ = (2 * period * n + d) * d' / (2 * d * d') := (Nat.mul_div_mul_right _ _ hd').symm
    _ = (2 * period * n' + d') * d / (2 * d' * d) := by rw [hnum, Nat.mul_right_comm 2 d d']
    _ = (2 * period * n' + d') / (2 * d') := Nat.mul_div_mul_right _ _ hd

/-- The calculator reads the form through its divisors, its ticks and its timing only. -/
theorem derive_congr {form form' : TimingForm} (hdiv : divisorsOk form = divisorsOk form')
    (hticks : symbolTicks (tickHz c) form = symbolTicks (tickHz c) form')
    (htiming : ∀ q, timingOf q form = timingOf q form') :
    derive w { c with timing := form } = derive w { c with timing := form' } := by
  have htick : ∀ f, tickHz { c with timing := f } = tickHz c := fun _ => rfl
  simp only [derive, htick, hdiv, hticks, htiming]

/-- Settles O15: the number of ticks is the same as `10^9 = t_sym_ns * f_sym_hz`, and so are the
rounded fractions. -/
theorem configurationFormsAgree : Obligations.ConfigurationFormsAgree := by
  intro w c tSym t0h t1h fSym zNum zDen oNum oDen hsym hz ho hzero hone
  have htSym : 1 ≤ tSym := Nat.pos_of_ne_zero (by rintro rfl; omega)
  have hfSym : 1 ≤ fSym := Nat.pos_of_ne_zero (by rintro rfl; omega)
  refine derive_congr ?_ ?_ fun q => ?_
  · simp [divisorsOk, htSym, hfSym, hz, ho]
  · show tickHz c * tSym / 1000000000 = tickHz c / fSym
    rw [← hsym, Nat.mul_comm tSym fSym, Nat.mul_div_mul_right _ _ htSym]
  · simp only [timingOf, zeroFraction, oneFraction,
      roundFraction_eq_of_cross (q - 1) htSym hz hzero.symm,
      roundFraction_eq_of_cross (q - 1) htSym ho hone.symm]

/-! ### Rounding -/

/-- Settles O16: the quotient's defining inequalities, halved. -/
theorem roundingIsNearestTiesUpward : Obligations.RoundingIsNearestTiesUpward := by
  intro period num den k hden
  have hlow : 2 * k * den = k * (2 * den) := by ring
  have hhigh : (2 * k + 1) * den = k * (2 * den) + den := by ring
  show (2 * period * num + den) / (2 * den) = k ↔ _
  rw [Nat.div_eq_iff (by omega), hlow, hhigh]
  omega

/-- A quotient of at least 1 and the next number enclose the fraction. -/
theorem div_mul_le_lt {a b : Nat} (hb : 1 ≤ b) (hq : 1 ≤ a / b) :
    (a / b - 1 + 1) * b ≤ a ∧ a < (a / b - 1 + 2) * b := by
  rw [Nat.sub_add_cancel hq, show a / b - 1 + 2 = a / b + 1 by omega, Nat.mul_comm _ b]
  exact ⟨Nat.mul_div_le a b, Nat.mul_comm _ b ▸ Nat.lt_mul_div_succ a hb⟩

/-- Settles O17: `period + 1` is the quotient of the request by the tick, rounded down. -/
theorem realisedSymbolIsWithinOneTick : Obligations.RealisedSymbolIsWithinOneTick := by
  refine ⟨fun w c t fSym zNum zDen oNum oDen hform h => ?_, fun w c t tSym t0h t1h hform h => ?_⟩
  · obtain ⟨-, hdiv, hq, -, rfl⟩ := (derive_eq_some w c t).1 h
    rw [hform] at hdiv hq ⊢
    simp only [divisorsOk, Bool.and_eq_true, decide_eq_true_eq] at hdiv
    obtain ⟨⟨hsym, -⟩, -⟩ := hdiv
    exact div_mul_le_lt hsym hq
  · obtain ⟨-, -, hq, -, rfl⟩ := (derive_eq_some w c t).1 h
    rw [hform] at hq ⊢
    exact div_mul_le_lt (by decide) hq

end Sys2Proof.Machine
end

section
/-! PROOFS. The frame of a taken `SHOW`, and what it decodes to (42_show_encoder.md, 30_encoding.md
R87). -/

namespace Sys2Proof.Machine

variable {s : State} {m : Memory}

/-- With no burst in flight a start does what the choice says, and without a choice one of the two. -/
theorem xferAfterStart_of_choice {len : Nat} (hx : s.xfer = .none) :
    (s.tcStart = some true → xferAfterStart len s = .active len 0) ∧
    (s.tcStart = some false → xferAfterStart len s = .dead) ∧
    (s.tcStart = none → xferAfterStart len s = .active len 0 ∨ xferAfterStart len s = .dead) := by
  rw [xferAfterStart_of_none hx]
  refine ⟨fun hc => by simp [startSucceeds, hc], fun hc => by simp [startSucceeds, hc], fun _ => ?_⟩
  cases startSucceeds s
  · exact .inr rfl
  · exact .inl rfl

/-- Settles O26: `encode_frame` writes data slots only, and the rest is what starting a frame does. -/
theorem showChangesOnlyDataSlotsAndBurst : Obligations.ShowChangesOnlyDataSlotsAndBurst := by
  intro s hs hi hr
  obtain ⟨m, hm, -⟩ := encodeFrame_of_wf s hs
  refine ⟨startFrame m s, exec_showFrame_of_ready hi hr hm, fun a => encodeFrame_other hm, rfl, ?_,
    xferAfterStart_of_choice⟩
  simp [burstLen]

/-- The words of a byte in increasing slot order. -/
theorem enc8_eq_map_range (zw ow : Nat) (v : Byte) :
    enc8 zw ow v = (List.range 8).map fun k => pulse zw ow (v.getLsbD (7 - k)) :=
  rfl

/-- The eight words of a field of an active pixel are the encoder's. -/
theorem fieldWords_of_encodeFrame (hs : s.WF) (hm : encodeFrame s = .ok m) {i : Nat} {px : Pixel}
    (hi : i < s.activeCount) (hpx : pxRead s.x i = .ok px) (f : Fin 3) :
    ((List.range 8).map fun k => Memory.read m (guardSlots s.params + 24 * i + 8 * f.val + k)) =
      enc8 s.zeroThreshold s.oneThreshold (fieldByte f px) := by
  rw [enc8_eq_map_range]
  exact List.map_congr_left fun k hk =>
    read_fieldWord_of_encodeFrame hs hm hi hpx (List.mem_range.1 hk) f

/-- Settles O29: the field's words are the encoder's, and the decoding rule undoes the encoder. -/
theorem shownFrameDecodesToThePixels : Obligations.ShownFrameDecodesToThePixels := by
  intro s hs hi hr hlt
  obtain ⟨m, hm, -⟩ := encodeFrame_of_wf s hs
  refine ⟨startFrame m s, exec_showFrame_of_ready hi hr hm, fun i px f hact hpx => ?_⟩
  rw [startFrame_txbuf, startFrame_zeroThreshold, startFrame_oneThreshold,
    fieldWords_of_encodeFrame hs hm hact hpx, dec8_enc8 hlt]

end Sys2Proof.Machine
end

section
/-! PROOFS. The tables of the whole machine: what each step does to `ready`, to the emitted calls, to the
responses and to the buffer (43_handshake_fsm.md R191, 60_exceptions.md R229). -/

namespace Sys2Proof.Machine

variable {s t : State} {i : Instr}

/-! ### The two kinds of step -/

/-- `s` and `t` agree on `ready`, the buffer, and what was emitted and responded. -/
structure SameOutputs (s t : State) : Prop where
  ready : t.ready = s.ready
  txbuf : t.txbuf = s.txbuf
  tcTrace : t.tcTrace = s.tcTrace
  rspTrace : t.rspTrace = s.rspTrace

theorem dmaTurn_keeps_outputs (h : dmaTurn s = .next t) : SameOutputs s t := by
  obtain ⟨rfl, -⟩ | ⟨_, _, _, -, -, -, rfl⟩ | ⟨_, -, rfl⟩ := dmaTurn_next h
  · exact ⟨rfl, rfl, rfl, rfl⟩
  · exact ⟨rfl, rfl, rfl, rfl⟩
  · exact ⟨rfl, rfl, rfl, rfl⟩

/-- A step runs the operation of its input, or keeps the outputs. -/
theorem step_runs_or_keeps_outputs (h : step s = .next t) :
    (∃ i, nextInstr s = some i ∧ exec i (pastInput s) = .next t) ∨
      (nextInstr s = none ∧ SameOutputs s t) := by
  obtain ⟨-, hn, rfl⟩ | hrun | ⟨hn, rfl | ⟨-, hd⟩ | ⟨_, rfl⟩ | ⟨_, rfl⟩⟩ := step_next h
  · exact .inr ⟨hn, rfl, rfl, rfl, rfl⟩
  · exact .inl hrun
  · exact .inr ⟨hn, rfl, rfl, rfl, rfl⟩
  · obtain ⟨hready, htx, htrace, hrsp⟩ := dmaTurn_keeps_outputs hd
    exact .inr ⟨hn, hready, htx, htrace, hrsp⟩
  · exact .inr ⟨hn, rfl, rfl, rfl, rfl⟩
  · exact .inr ⟨hn, rfl, rfl, rfl, rfl⟩

/-- The operation of the input ran in the state past it. -/
theorem exec_of_step (h : step s = .next t) (hn : nextInstr s = some i) :
    exec i (pastInput s) = .next t := by
  obtain ⟨j, hj, hex⟩ | ⟨hnone, -⟩ := step_runs_or_keeps_outputs h
  · obtain rfl : i = j := by simpa [hn] using hj
    exact hex
  · simp [hn] at hnone

/-! ### `ready` -/

/-- The transition table for the operations (43_handshake_fsm.md R191). -/
theorem exec_ready (hi : s.inited = true) (h : exec i s = .next t) :
    t.ready = if i = .showFrame then false else if i = .tcDone then true else s.ready := by
  obtain ⟨-, hoff, -⟩ | ⟨-, ⟨hpix, hx, -⟩ | ⟨_, _, rfl, rfl⟩ | ⟨rfl, rfl⟩ | ⟨rfl, hr, rfl⟩ |
    ⟨rfl, -, m, -, rfl⟩ | ⟨rfl, rfl⟩⟩ := exec_next_cases h
  · simp [hi] at hoff
  · rw [hx]
    obtain ⟨_, _, _, _, rfl⟩ | ⟨_, _, rfl⟩ | ⟨_, rfl⟩ | rfl := hpix <;> rfl
  · rfl
  · rfl
  · exact hr
  · rfl
  · rw [completionHandler_eq]
    rfl

/-- Settles O33: the operation's row of the table, and no other input moves the flag. -/
theorem readinessMovesOnlyByShowAndCompletion :
    Obligations.ReadinessMovesOnlyByShowAndCompletion := by
  intro s t hi h
  obtain ⟨i, hn, hex⟩ | ⟨hn, hsame⟩ := step_runs_or_keeps_outputs h
  · rw [exec_ready (s := pastInput s) hi hex]
    simp [hn, pastInput]
  · simp [hn, hsame.ready]

/-! ### The configuration -/

/-- Settles O34: `INIT` keeps the parameters, and every other input keeps the configuration. -/
theorem configurationIsFixedAfterInit : Obligations.ConfigurationIsFixedAfterInit := by
  refine ⟨fun s t h => ?_, fun s t hi h => ?_⟩
  · by_cases hn : nextInstr s = some .init
    · obtain ⟨-, rfl⟩ := execInit_next.1 (exec_of_step h hn)
      rfl
    · exact (step_keeps_config h hn).params
  · have hk := step_keeps_config_of_inited hi h
    exact ⟨hk.inited.trans hi, hk.activeCount, hk.period, hk.zeroThreshold, hk.oneThreshold, hk.tcCfg⟩

/-! ### The emitted calls -/

/-- What an operation emits is what the summary gives for it, to the retained channel. -/
theorem tcTrace_of_instr (h : step s = .next t) (hn : nextInstr s = some i) :
    t.tcTrace = s.tcTrace ++ (callsOfNext s).map fun c => { chan := t.tcCfg, call := c } := by
  obtain ⟨rfl, -, hinit⟩ | ⟨-, ⟨hpix, hx, -⟩ | ⟨_, _, rfl, rfl⟩ | ⟨rfl, rfl⟩ | ⟨rfl, hr, rfl⟩ |
    ⟨rfl, hr, m, -, rfl⟩ | ⟨rfl, rfl⟩⟩ := exec_next_cases (exec_of_step h hn)
  · obtain ⟨-, rfl⟩ := execInit_next.1 hinit
    simp [callsOfNext, hn, pastInput]
  · have hcalls : callsOfNext s = [] := by
      obtain ⟨_, _, _, _, rfl⟩ | ⟨_, _, rfl⟩ | ⟨_, rfl⟩ | rfl := hpix <;> simp [callsOfNext, hn]
    rw [hx, hcalls]
    simp [pastInput]
  · simp [callsOfNext, hn, pastInput, respond]
  · simp [callsOfNext, hn, pastInput, respond]
  · have hready : s.ready = false := hr
    simp [callsOfNext, hn, pastInput, hready]
  · have hready : s.ready = true := hr
    simp [callsOfNext, hn, hready, pastInput, burstLen]
  · rw [completionHandler_eq]
    cases hidle : s.params.idleOnDone <;> simp [callsOfNext, hn, pastInput, hidle]

/-- Settles O35: operation by operation, and no other input emits a call. -/
theorem emittedCallsAreThoseOfTheTable : Obligations.EmittedCallsAreThoseOfTheTable := by
  intro s t h
  obtain ⟨i, hn, -⟩ | ⟨hn, hsame⟩ := step_runs_or_keeps_outputs h
  · exact tcTrace_of_instr h hn
  · simp [callsOfNext, hn, hsame.tcTrace]

/-- Of the calls of the summary only those of a `SHOW` in `READY` start a burst. -/
theorem countP_isStartDma_callsOfNext (s : State) (cfg : TcCfg) :
    ((callsOfNext s).map fun c => { chan := cfg, call := c }).countP isStartDma =
      if nextInstr s = some .showFrame ∧ s.ready = true then 1 else 0 := by
  cases hn : nextInstr s with
  | none => simp [callsOfNext, hn]
  | some i =>
    cases i with
    | init => simp [callsOfNext, hn, tcInitCall, isStartDma]
    | setRgb | setPacked | fill | clear | get | status => simp [callsOfNext, hn]
    | showFrame => cases hr : s.ready <;> simp [callsOfNext, hn, hr, isStartDma]
    | tcDone => cases hidle : s.params.idleOnDone <;> simp [callsOfNext, hn, hidle, isStartDma]

/-- A `SHOW` that completes is taken in `READY` and dropped in `BUSY`. -/
theorem showTaken_iff (h : step s = .next t) :
    showTaken s = true ↔ nextInstr s = some .showFrame ∧ s.ready = true := by
  simp only [showTaken, Bool.and_eq_true, decide_eq_true_eq]
  refine ⟨fun ⟨⟨hn, _⟩, hr⟩ => ⟨hn, hr⟩, fun ⟨hn, hr⟩ => ⟨⟨hn, ?_⟩, hr⟩⟩
  exact (execShow_next (exec_of_step h hn)).1

/-- Settles O36: the `TC.StartDma` entries among the emitted calls. -/
theorem oneStartDmaPerReadyShow : Obligations.OneStartDmaPerReadyShow := by
  intro s t h
  simp only [startDmaCount, showTaken_iff h, emittedCallsAreThoseOfTheTable s t h,
    List.countP_append, countP_isStartDma_callsOfNext]

/-! ### The responses -/

/-- Settles O37: the writing operations, `SHOW`, `INIT` and `TC_DONE` respond nothing, nor does any
other input; `GET` and `STATUS` respond once. -/
theorem onlyGetAndStatusRespond : Obligations.OnlyGetAndStatusRespond := by
  intro s t h
  obtain ⟨i, hn, hex⟩ | ⟨hn, hsame⟩ := step_runs_or_keeps_outputs h
  · rw [hn]
    obtain ⟨rfl, -, hinit⟩ | ⟨-, ⟨hpix, hx, -⟩ | ⟨idx, c, rfl, rfl⟩ | ⟨rfl, rfl⟩ | ⟨rfl, -, rfl⟩ |
      ⟨rfl, -, m, -, rfl⟩ | ⟨rfl, rfl⟩⟩ := exec_next_cases hex
    · obtain ⟨-, rfl⟩ := execInit_next.1 hinit
      exact .inl ⟨rfl, nofun, nofun⟩
    · refine .inl ⟨by rw [hx]; rfl, ?_, ?_⟩
      all_goals obtain ⟨_, _, _, _, rfl⟩ | ⟨_, _, rfl⟩ | ⟨_, rfl⟩ | rfl := hpix <;> nofun
    · exact .inr (.inl ⟨⟨c, rfl⟩, idx, rfl⟩)
    · exact .inr (.inr ⟨⟨_, rfl⟩, rfl⟩)
    · exact .inl ⟨rfl, nofun, nofun⟩
    · exact .inl ⟨startFrame_rspTrace _ _, nofun, nofun⟩
    · refine .inl ⟨?_, nofun, nofun⟩
      rw [completionHandler_eq]
      rfl
  · exact .inl ⟨hsame.rspTrace, by simp [hn], by simp [hn]⟩

/-! ### The buffer -/

/-- Before `INIT` only `INIT` completes. -/
theorem eq_init_of_exec (hoff : s.inited = false) (h : exec i s = .next t) : i = .init := by
  by_contra hne
  rw [exec_of_not_inited hne hoff] at h
  cases h

/-- Settles O38: before `INIT` no other operation completes, and afterwards only a taken `SHOW` writes
the buffer. -/
theorem bufferChangesOnlyByInitOrReadyShow : Obligations.BufferChangesOnlyByInitOrReadyShow := by
  intro s t h hne
  cases hi : s.inited with
  | true =>
    obtain hsame | ⟨hn, hr, -⟩ := step_txbuf_of_inited hi h
    · exact absurd hsame hne
    · exact .inr ((showTaken_iff h).2 ⟨hn, hr⟩)
  | false =>
    obtain ⟨i, hn, hex⟩ | ⟨-, hsame⟩ := step_runs_or_keeps_outputs h
    · rw [eq_init_of_exec (s := pastInput s) hi hex] at hn
      exact .inl ⟨hn, rfl⟩
    · exact absurd hsame.txbuf hne

end Sys2Proof.Machine
end

section
/-! PROOFS. A burst in `BUSY` sends the snapshot in order, whatever the host does meanwhile (20_memory.md
section 6, 60_exceptions.md R227). -/

namespace Sys2Proof.Machine

variable {s t : State} {m : Memory} {k : Nat}

/-! ### Runs of words of the buffer -/

/-- The words are those of the buffer from `pos` on, in order, and no more than `bound` of them. -/
def SentInOrder (m : Memory) (pos bound : Nat) (ws : List Nat) : Prop :=
  ws = (List.range ws.length).map (fun j => Memory.read m (pos + j)) ∧ ws.length ≤ bound

theorem sentInOrder_nil (m : Memory) (pos bound : Nat) : SentInOrder m pos bound [] :=
  ⟨rfl, Nat.zero_le _⟩

/-- The words from `pos` on are word `pos` and the words after it. -/
theorem map_read_range_succ (m : Memory) (pos n : Nat) :
    (List.range (n + 1)).map (fun j => Memory.read m (pos + j)) =
      Memory.read m pos :: (List.range n).map fun j => Memory.read m (pos + 1 + j) := by
  rw [List.range_succ_eq_map, List.map_cons, List.map_map]
  exact congrArg _ (List.map_congr_left fun j _ => congrArg _ (Nat.add_right_comm pos j 1))

theorem SentInOrder.cons {pos len : Nat} {ws : List Nat} (hlt : pos < len)
    (h : SentInOrder m (pos + 1) (len - (pos + 1)) ws) :
    SentInOrder m pos (len - pos) (Memory.read m pos :: ws) := by
  obtain ⟨hws, hbound⟩ := h
  refine ⟨?_, by simp only [List.length_cons]; omega⟩
  rw [List.length_cons, map_read_range_succ, ← hws]

/-! ### Which steps send a word -/

theorem beatNext_eq_true {len pos : Nat} {rest : List Event} (hin : s.input = .dma :: rest)
    (hx : s.xfer = .active len pos) (hlt : pos < len) : beatNext s = true := by
  simp [beatNext, hin, hx, hlt]

theorem beatNext_of_not_dma (h : s.input.head? ≠ some .dma) : beatNext s = false := by
  unfold beatNext
  split
  case h_1 hin _ => simp [hin] at h
  case h_2 => rfl

theorem beatNext_of_no_beat (h : ∀ len pos, s.xfer = .active len pos → len ≤ pos) :
    beatNext s = false := by
  unfold beatNext
  split
  case h_1 len pos _ hx => exact decide_eq_false (h len pos hx).not_gt
  case h_2 => rfl

theorem wordsSent_of_beat (h : step s = .next t) (hb : beatNext s = true) :
    wordsSent (k + 1) s = t.ccr :: wordsSent k t := by
  simp [wordsSent, h, hb]

theorem wordsSent_of_no_beat (h : step s = .next t) (hb : beatNext s = false) :
    wordsSent (k + 1) s = wordsSent k t := by
  simp [wordsSent, h, hb]

theorem wordsSent_of_stop (h : ∀ t, step s ≠ .next t) : wordsSent (k + 1) s = [] := by
  unfold wordsSent
  split
  case h_1 t ht => exact absurd ht (h t)
  case h_2 => rfl
  case h_3 => rfl

/-! ### What a step in `BUSY` does to the burst and the buffer -/

theorem step_keeps_txbuf_of_busy (hi : s.inited = true) (hr : s.ready = false)
    (h : step s = .next t) : t.txbuf = s.txbuf := by
  obtain hsame | ⟨-, hready, -⟩ := step_txbuf_of_inited hi h
  · exact hsame
  · simp [hr] at hready

/-- A step in `BUSY` without `TC_DONE` sends the word at the burst's position, or sends none and leaves
the burst as it is or over. -/
theorem step_burst_of_busy (hi : s.inited = true) (hr : s.ready = false)
    (hne : nextInstr s ≠ some .tcDone) (h : step s = .next t) :
    (∃ len pos, s.xfer = .active len pos ∧ pos < len ∧ beatNext s = true ∧
      t.ccr = Memory.read s.txbuf pos ∧ t.xfer = .active len (pos + 1)) ∨
    (beatNext s = false ∧ (t.xfer = s.xfer ∨ t.xfer = .none)) := by
  by_cases hdma : s.input.head? = some .dma
  · obtain ⟨rest, hin⟩ := List.head?_eq_some_iff.1 hdma
    rw [step_of_dma hin] at h
    obtain ⟨rfl, hno⟩ | ⟨len, pos, w, hx, hlt, hw, rfl⟩ | ⟨len, hx, rfl⟩ := dmaTurn_next h
    · exact .inr ⟨beatNext_of_no_beat fun len pos hx => (hno len pos hx).le, .inl rfl⟩
    · exact .inl ⟨len, pos, hx, hlt, beatNext_eq_true hin hx hlt, (txRead_eq_ok.1 hw).2, rfl⟩
    · have hx : s.xfer = .active len len := hx
      refine .inr ⟨beatNext_of_no_beat fun len' pos' hx' => ?_, .inr rfl⟩
      rw [hx] at hx'
      cases hx'
      exact le_rfl
  · refine .inr ⟨beatNext_of_not_dma hdma, .inl ?_⟩
    obtain ⟨-, -, rfl⟩ | ⟨i, hn, hex⟩ | ⟨-, rfl | ⟨hd, -⟩ | ⟨_, rfl⟩ | ⟨_, rfl⟩⟩ := step_next h
    · rfl
    · exact (exec_keeps_handshake_of_busy (s := pastInput s) hi hr (fun he => hne (he ▸ hn)) hex).xfer
    · rfl
    · exact absurd hd hdma
    · rfl
    · rfl

/-! ### The words sent -/

/-- In `BUSY` without a burst nothing is sent. -/
theorem wordsSent_of_no_burst (hi : s.inited = true) (hr : s.ready = false) (hx : s.xfer = .none)
    (hno : noCompletion k s) : wordsSent k s = [] := by
  induction k generalizing s with
  | zero => rfl
  | succ k ih =>
    obtain ⟨hne, hno⟩ := hno
    cases hstep : step s with
    | fault | refused => exact wordsSent_of_stop (by simp [hstep])
    | next t =>
      obtain ⟨hti, htr⟩ := step_keeps_busy hi hr hne hstep
      obtain ⟨len, pos, hact, -⟩ | ⟨hb, hxt⟩ := step_burst_of_busy hi hr hne hstep
      · simp [hx] at hact
      · rw [wordsSent_of_no_beat hstep hb]
        exact ih hti htr (hxt.elim (·.trans hx) id) (hno t hstep)

theorem wordsSent_inOrder {len pos : Nat} (hi : s.inited = true) (hr : s.ready = false)
    (hx : s.xfer = .active len pos) (hno : noCompletion k s) :
    SentInOrder s.txbuf pos (len - pos) (wordsSent k s) := by
  induction k generalizing s pos with
  | zero => exact sentInOrder_nil _ _ _
  | succ k ih =>
    obtain ⟨hne, hno⟩ := hno
    cases hstep : step s with
    | fault | refused =>
      rw [wordsSent_of_stop (by simp [hstep])]
      exact sentInOrder_nil _ _ _
    | next t =>
      obtain ⟨hti, htr⟩ := step_keeps_busy hi hr hne hstep
      have hno' := hno t hstep
      rw [← step_keeps_txbuf_of_busy hi hr hstep]
      obtain ⟨len', pos', hx', hlt, hb, hccr, hxt⟩ | ⟨hb, hxt | hxt⟩ :=
        step_burst_of_busy hi hr hne hstep
      · obtain ⟨rfl, rfl⟩ : len = len' ∧ pos = pos' := by simpa [hx] using hx'
        rw [wordsSent_of_beat hstep hb, hccr, ← step_keeps_txbuf_of_busy hi hr hstep]
        exact (ih hti htr hxt hno').cons hlt
      · rw [wordsSent_of_no_beat hstep hb]
        exact ih hti htr (hxt.trans hx) hno'
      · rw [wordsSent_of_no_beat hstep hb, wordsSent_of_no_burst hti htr hxt hno']
        exact sentInOrder_nil _ _ _

/-- Given `n` turns, a burst with `n` words left sends them all. -/
theorem wordsSent_of_turns {n pos : Nat} {rest : List Event} (hx : s.xfer = .active (pos + n) pos)
    (hbuf : pos + n ≤ bufLen s.params) (hin : s.input = List.replicate n .dma ++ rest) :
    wordsSent n s = (List.range n).map fun j => Memory.read s.txbuf (pos + j) := by
  induction n generalizing s pos with
  | zero => rfl
  | succ n ih =>
    have hlen : pos + (n + 1) = pos + 1 + n := by omega
    rw [hlen] at hx hbuf
    have hlt : pos < pos + 1 + n := by omega
    rw [wordsSent_of_beat (step_of_beat hin hx hlt hbuf) (beatNext_eq_true hin hx hlt),
      map_read_range_succ]
    exact congrArg _ (ih (s := burstAt s (List.replicate n .dma ++ rest) (Memory.read s.txbuf pos)
      (pos + 1 + n) (pos + 1)) rfl hbuf rfl)

/-- Settles O41: by induction on the steps in `BUSY`, by induction on the turns, and since the engine
never writes the buffer. -/
theorem burstSendsTheSnapshotInOrder : Obligations.BurstSendsTheSnapshotInOrder := by
  refine ⟨fun k s len pos hi hr hx hno => wordsSent_inOrder hi hr hx hno,
    fun s len pos rest hx hbuf hin => ?_, fun s t hdma h => ?_⟩
  · obtain hle | hlt := Nat.lt_or_ge len pos
    · rw [Nat.sub_eq_zero_of_le hle.le]
      rfl
    · obtain ⟨n, rfl⟩ := Nat.exists_eq_add_of_le hlt
      rw [Nat.add_sub_cancel_left] at hin ⊢
      exact wordsSent_of_turns hx hbuf hin
  · obtain ⟨rest, hin⟩ := List.head?_eq_some_iff.1 hdma
    rw [step_of_dma hin] at h
    exact dmaTurn_keeps_txbuf (s := { s with input := rest }) h

end Sys2Proof.Machine
end

section
/-! PROOFS. How a burst ends: served, it leads to `READY` (43_handshake_fsm.md section 2); raced by a
`SHOW`, in one of two outcomes (60_exceptions.md R218). -/

namespace Sys2Proof.Machine

variable {s t : State}

/-- A step other than a taken `SHOW` starts no burst. -/
theorem startDmaCount_of_not_taken (h : step s = .next t)
    (hn : ¬ (nextInstr s = some .showFrame ∧ s.ready = true)) :
    startDmaCount t = startDmaCount s := by
  rw [oneStartDmaPerReadyShow s t h, if_neg (mt (showTaken_iff h).1 hn)]
  rfl

theorem nextInstr_of_notify {rest : List Event} (hin : s.input = .notify 1#1 :: rest) :
    nextInstr s = some .tcDone := by
  rw [nextInstr, hin]
  rfl

theorem nextInstr_of_show {rest : List Event}
    (hin : s.input = .command .main 0x0600000000000000#64 :: rest) :
    nextInstr s = some .showFrame := by
  rw [nextInstr, hin]
  rfl

theorem step_of_show {rest : List Event}
    (hin : s.input = .command .main 0x0600000000000000#64 :: rest) :
    step s = exec .showFrame { s with input := rest } :=
  step_of_command hin rfl

/-! ### Served -/

/-- A burst with `n` words left is at its end after `n` turns. -/
theorem run_beats {n pos : Nat} {rest : List Event} (hx : s.xfer = .active (pos + n) pos)
    (hbuf : pos + n ≤ bufLen s.params) (hin : s.input = List.replicate n .dma ++ rest) :
    ∃ w, ∀ k, Host.Core.run Sys2Proof.core (n + k) s =
      Host.Core.run Sys2Proof.core k (burstAt s rest w (pos + n) (pos + n)) := by
  induction n generalizing s pos with
  | zero =>
    have hin : s.input = rest := hin
    have hx : s.xfer = .active pos pos := hx
    have hsame : burstAt s rest s.ccr pos pos = s := by rw [burstAt, ← hin, ← hx]
    refine ⟨s.ccr, fun k => ?_⟩
    rw [Nat.zero_add, Nat.add_zero, hsame]
  | succ n ih =>
    have hlen : pos + (n + 1) = pos + 1 + n := by omega
    rw [hlen] at hx hbuf ⊢
    have hstep := step_of_beat hin hx (by omega) hbuf
    obtain ⟨w, hrun⟩ := ih (s := burstAt s (List.replicate n .dma ++ rest)
      (Memory.read s.txbuf pos) (pos + 1 + n) (pos + 1)) rfl hbuf rfl
    refine ⟨w, fun k => ?_⟩
    rw [Nat.add_right_comm n 1 k]
    exact (core_run_succ hstep).trans (hrun k)

/-- Settles O42: the beats, `FINISH` and the delivery, one after the other. -/
theorem servedBurstEndsReady : Obligations.ServedBurstEndsReady := by
  intro s len pos hi hx hle hbuf hin
  obtain ⟨n, rfl⟩ := Nat.exists_eq_add_of_le hle
  rw [Nat.add_sub_cancel_left] at hin ⊢
  rw [List.replicate_succ', List.append_assoc] at hin
  obtain ⟨w, hrun⟩ := run_beats hx hbuf hin
  have hfinish := step_of_finish
    (s := burstAt s [.dma, .notify 1#1] w (pos + n) (pos + n)) rfl rfl
  have hdone := step_of_notify (s := finish (burstAt s [.notify 1#1] w (pos + n) (pos + n))) hi rfl
  have hend := (hrun 2).trans ((core_run_succ hfinish).trans (core_run_succ hdone))
  have hcount := startDmaCount_of_not_taken hdone
    (by rw [nextInstr_of_notify (rest := []) rfl]; exact nofun)
  exact ⟨_, hend, rfl, runOver_iff.2 ⟨rfl, quiescent_iff.2 ⟨hi, rfl, rfl, rfl⟩⟩, hcount⟩

/-! ### Raced -/

/-- Settles O43: delivered first, the block is `READY` when `SHOW` comes; `SHOW` first is dropped, and
the delivery finds what it would have found. -/
theorem showAndCompletionInEitherOrder : Obligations.ShowAndCompletionInEitherOrder := by
  intro s rest hs hi hr hx hn
  refine ⟨fun hin => ?_, fun hin => ?_⟩
  · have hdone := step_of_notify hi hin
    obtain ⟨m, hshow⟩ := exec_showFrame_starts_frame
      ((stepKeepsStatesWellFormed _ _ hs hdone).with_ports rest s.cfgPort s.tcStart) hi rfl
    have hstep := (step_of_show rfl).trans hshow
    refine ⟨_, (core_run_succ hdone).trans (core_run_succ hstep), rfl, ?_⟩
    rw [oneStartDmaPerReadyShow _ _ hstep, if_pos ((showTaken_iff hstep).2 ⟨nextInstr_of_show rfl, rfl⟩),
      startDmaCount_of_not_taken hdone (by simp [hr])]
  · have hshow := (step_of_show hin).trans
      (exec_showFrame_of_busy (s := { s with input := .notify 1#1 :: rest }) hi hr)
    have hdone := step_of_notify (s := { s with input := .notify 1#1 :: rest }) hi rfl
    refine ⟨_, (core_run_succ hshow).trans (core_run_succ hdone), rfl, hx, ?_⟩
    rw [startDmaCount_of_not_taken hdone (by simp [hr]),
      startDmaCount_of_not_taken hshow (by simp [hr])]

end Sys2Proof.Machine
end
